-- ==== Sys2Proof/Word.lean ====
section
/-! DEFINITION. The bus word of 00_scope.md R6 and the set of word widths of R2. -/

namespace Sys2Proof

/-- A value on the 64-bit operand or result bus (00_scope.md R6, R7): bit 0 is the least significant. -/
abbrev Word := BitVec 64

/-- The word widths W: "no width outside that set exists" (00_scope.md R2). -/
inductive Width where
  | w8
  | w16
  | w32
  | w64
deriving DecidableEq, Repr

/-- W in bits. -/
def Width.bits : Width → Nat
  | .w8 => 8
  | .w16 => 16
  | .w32 => 32
  | .w64 => 64

/-- All four widths, for statements and tests that run over them. -/
def Width.all : List Width := [.w8, .w16, .w32, .w64]

end Sys2Proof
end

