-- ==== Sys2Proof/Config.lean ====
section
/-! DEFINITION. What the build fixes and the free values (00_scope.md R6; 93_implementation_defined.md I6, I7). -/

namespace Sys2Proof

/-- The reference value of the build parameter `L` (00_scope.md R6, D8). Only `State.reset` uses it: a State of any
latency is a machine of the model (log 1). -/
def Config.referenceLatency : Nat := 1

/-- Free value: `stage[k].v` in draw number `draw`. Every power-up and every clock edge before the first reset edge is a draw
(70_reset_and_hazards.md R68; log 8). -/
opaque Config.powerUpValid (draw k : Nat) : Bool

/-- Free value: `stage[k].y` in draw number `draw` (R68; log 8). -/
opaque Config.powerUpResult (draw k : Nat) : Word

/-- Free value: `stage[k].ill` in draw number `draw` (R68; log 8). -/
opaque Config.powerUpIllegal (draw k : Nat) : Bool

end Sys2Proof
end

