-- ==== Sys2Proof/Syntax.lean ====
section
/-! DEFINITION. The requests, the input cycles that carry them, and the lines of the assembler syntax
(30_encoding.md R32, R38, R39; 10_state.md R11). -/

namespace Sys2Proof

/-- One constructor per row of spec/opcode_table.json. `a` is the operand word itself (R35). A reserved request keeps
its four op bits (R38, `rsv <op> <a>`). -/
inductive Instr where
  | brev8 (a : Word)
  | brev16 (a : Word)
  | brev32 (a : Word)
  | brev64 (a : Word)
  | popcnt8 (a : Word)
  | popcnt16 (a : Word)
  | popcnt32 (a : Word)
  | popcnt64 (a : Word)
  | reserved (op : BitVec 4) (a : Word)
deriving DecidableEq, Repr

/-- The two fields of the one request format REQ (R32). -/
structure Request where
  /-- `req_op[3:0]` -/
  op : BitVec 4
  /-- `req_a[63:0]` -/
  a : Word
deriving DecidableEq, Repr

/-- The input ports during one cycle (10_state.md R11), every input two-valued (R12; log 12). -/
structure Inputs where
  /-- A rising edge of `clk` ends this cycle; false: the platform holds the clock stopped (60_exceptions.md R63; log 5). -/
  clk : Bool
  rst : Bool
  reqValid : Bool
  reqOp : BitVec 4
  reqA : Word
deriving DecidableEq, Repr

/-- What the ports carry when the host presents nothing: a cycle with no request (R38 `idle`; log 3). -/
def Inputs.idle : Inputs := ⟨true, false, false, 0#4, 0#64⟩

/-- A line of the assembler syntax (R38): one line is one clock cycle. -/
inductive Line where
  | request (i : Instr)
  | idle
  | reset
deriving DecidableEq, Repr

end Sys2Proof
end

