-- ==== Sys2Proof/Machine/State.lean ====
section
/-! DEFINITION. The machine's state as plain data, its reasons to stop, and the state after reset (10_state.md R13, R23). -/

namespace Sys2Proof.Machine

/-- A pipeline stage, which is also the response record of a cycle and the value of the three response ports
(10_state.md R13; 70_reset_and_hazards.md R64). -/
structure Stage where
  /-- the stage holds a response; on the ports, `rsp_valid` -/
  v : Bool
  /-- the result of that response; on the ports, `rsp_y` -/
  y : Word
  /-- the illegal flag of that response; on the ports, `rsp_illegal` -/
  ill : Bool
deriving DecidableEq, Repr

/-- The empty record (0, 0, 0) of R14, R64 and R67. -/
def Stage.empty : Stage := ⟨false, 0#64, false⟩

/-- Whether a reset edge has come since power-up (70_reset_and_hazards.md R68). -/
inductive Phase where
  /-- No reset edge yet: the stages are unspecified. `draw` is the number of the draw that gave them their free values (the
  MODEL's own counter; log 8). -/
  | unreset (draw : Nat)
  /-- A reset edge has come: the block serves requests. -/
  | resetSeen
deriving DecidableEq, Repr

/-- All the machine holds, and the input cycles its host presents. The latency `L` is the number of stages (log 1). -/
structure State where
  /-- `stage[1]`, ..., `stage[L]` (R13) -/
  stages : List Stage
  /-- the input cycles the host presents, the current one first (R11, R74; log 2, log 3) -/
  inputs : List Inputs
  /-- the MODEL's own field: the response ports' values in the elapsed clock cycles, oldest first (R74; log 4) -/
  trace : List Stage
  /-- whether the first reset edge has come (R68; log 8) -/
  phase : Phase
deriving DecidableEq, Repr

/-- No constructor: no operation faults and the block has no trap (60_exceptions.md R55, R59; log 10). Safe: nothing is
proved of a stop that does not exist. -/
inductive Fault where
deriving DecidableEq, Repr

/-- Why exec refuses. -/
inductive Refusal where
  /-- Raised by an arm of exec for an instruction that has no meaning yet; safe. No arm of this model raises it. -/
  | notModelled (mnemonic : String)
deriving DecidableEq, Repr

/-- The state after reset of a block built with latency `L`: every stage (0, 0, 0) (R23), a reset edge seen (R68),
nothing presented yet. -/
def State.resetFor (L : Nat) : State := ⟨List.replicate L Stage.empty, [], [], .resetSeen⟩

/-- The state after reset of the reference build (R6: `L` = 1). -/
def State.reset : State := State.resetFor Config.referenceLatency

end Sys2Proof.Machine
end

