-- ==== Sys2Proof/Machine/Flags.lean ====
section
/-! DEFINITION. The one status output, `rsp_illegal` (10_state.md R15): the response records that carry it. -/

namespace Sys2Proof.Machine

/-- `ill <- 0`: the flag of all eight operations (41_bit_reverse.md R42 to R45, 42_popcount.md R50 to R53). -/
def illNormal : Bool := false

/-- The flag of a reserved request (60_exceptions.md R56). -/
def illReserved : Bool := true

/-- The response record of an operation with result `y`: (v = 1, y, ill = 0) (R64). -/
def answer (y : Word) : Stage := ⟨true, y, illNormal⟩

/-- The reserved-op response: (v = 1, y = 0, ill = 1) (R36, R56). It reports neither the op nor the operand. -/
def reservedAnswer : Stage := ⟨true, 0#64, illReserved⟩

end Sys2Proof.Machine
end

