-- ==== Sys2Proof/Machine/Operands.lean ====
section
/-! DEFINITION. Operand and result assembly (30_encoding.md R35) and the bit-by-bit assembly the bit kernels use
(00_scope.md R8). -/

namespace Sys2Proof.Machine

/-- `A <- a[W-1:0]`: the W-bit input word; `a[63:W]` is ignored (R35). -/
def operand (W : Width) (a : Word) : BitVec W.bits := a.setWidth W.bits

/-- `y <- zext_64(R)` for a result `R` of at most 64 bits (R35). -/
def result {n : Nat} (r : BitVec n) : Word := r.setWidth 64

/-- The `n`-bit value whose bits below `k` are `f 0`, ..., `f (k-1)` and whose other bits are 0. -/
def bitsBelow (n : Nat) (f : Nat → Bool) : Nat → BitVec n
  | 0 => 0#n
  | k + 1 => bitsBelow n f k ||| ((BitVec.ofBool (f k)).setWidth n <<< k)

/-- `for i in 0 .. n-1: r[i] <- f i`. -/
def bitsOf (n : Nat) (f : Nat → Bool) : BitVec n := bitsBelow n f n

/-- `ones(N)` on the 64-bit bus (R8), for N ≤ 64. -/
def ones (N : Nat) : Word := BitVec.ofNat 64 (2 ^ N - 1)

end Sys2Proof.Machine
end

