-- ==== Sys2Proof/Machine/MaskTable.lean ====
section
/-! DEFINITION. The constant mask table (10_state.md R18 to R21). -/

namespace Sys2Proof.Machine

/-- An entry of the table; the two W-bit constants stand zero-extended on the 64-bit bus. -/
structure MaskEntry where
  width : Width
  g : Nat
  low : Word
  high : Word
deriving DecidableEq, Repr

/-- The rows of the table for widths 8, 16 and 32 (R21). -/
def maskRomNarrow : List MaskEntry :=
  [⟨.w8, 1, 0x55#64, 0xAA#64⟩,
   ⟨.w8, 2, 0x33#64, 0xCC#64⟩,
   ⟨.w8, 4, 0x0F#64, 0xF0#64⟩,
   ⟨.w16, 1, 0x5555#64, 0xAAAA#64⟩,
   ⟨.w16, 2, 0x3333#64, 0xCCCC#64⟩,
   ⟨.w16, 4, 0x0F0F#64, 0xF0F0#64⟩,
   ⟨.w16, 8, 0x00FF#64, 0xFF00#64⟩,
   ⟨.w32, 1, 0x55555555#64, 0xAAAAAAAA#64⟩,
   ⟨.w32, 2, 0x33333333#64, 0xCCCCCCCC#64⟩,
   ⟨.w32, 4, 0x0F0F0F0F#64, 0xF0F0F0F0#64⟩,
   ⟨.w32, 8, 0x00FF00FF#64, 0xFF00FF00#64⟩,
   ⟨.w32, 16, 0x0000FFFF#64, 0xFFFF0000#64⟩]

/-- The rows of the table for width 64 (R21). -/
def maskRomWide : List MaskEntry :=
  [⟨.w64, 1, 0x5555555555555555#64, 0xAAAAAAAAAAAAAAAA#64⟩,
   ⟨.w64, 2, 0x3333333333333333#64, 0xCCCCCCCCCCCCCCCC#64⟩,
   ⟨.w64, 4, 0x0F0F0F0F0F0F0F0F#64, 0xF0F0F0F0F0F0F0F0#64⟩,
   ⟨.w64, 8, 0x00FF00FF00FF00FF#64, 0xFF00FF00FF00FF00#64⟩,
   ⟨.w64, 16, 0x0000FFFF0000FFFF#64, 0xFFFF0000FFFF0000#64⟩,
   ⟨.w64, 32, 0x00000000FFFFFFFF#64, 0xFFFFFFFF00000000#64⟩]

/-- The mask table: constant storage, never written and not readable by a request (R18; log 7). -/
def maskRom : List MaskEntry := maskRomNarrow ++ maskRomWide

/-- The entry for (W, g); none where the table has none: "only pairs with granularity < width exist" (R21). -/
def maskEntry (W : Width) (g : Nat) : Option MaskEntry :=
  maskRom.find? fun e => decide (e.width = W) && e.g == g

/-- `LOW(W,g)`; it is only asked for entries the table has. -/
def lowMask (W : Width) (g : Nat) : Word := ((maskEntry W g).map (·.low)).getD 0#64

/-- `HIGH(W,g)`; it is only asked for entries the table has. -/
def highMask (W : Width) (g : Nat) : Word := ((maskEntry W g).map (·.high)).getD 0#64

/-- The granularities of a width, from 1 up to W/2 (00_scope.md R6). -/
def granularities : Width → List Nat
  | .w8 => [1, 2, 4]
  | .w16 => [1, 2, 4, 8]
  | .w32 => [1, 2, 4, 8, 16]
  | .w64 => [1, 2, 4, 8, 16, 32]

end Sys2Proof.Machine
end

