-- ==== Sys2Proof/Machine/Ops.lean ====
section
/-! DEFINITION. The named operations over the pipeline, the input cycles and the observation: what every step is made of
(10_state.md R13; 70_reset_and_hazards.md R65 to R68; 60_exceptions.md R63). -/

namespace Sys2Proof.Machine

/-- The build parameter `L` (R13: the block holds `L` stages; log 1). -/
def State.latency (s : State) : Nat := s.stages.length

/-- `stage[k]`, numbered from 1 as R13 numbers them. -/
def State.stage (s : State) (k : Nat) : Stage := (s.stages[k - 1]?).getD Stage.empty

/-- The input ports `n` cycles from now; past the end of the list the host presents nothing (log 3). -/
def State.inputAt (s : State) (n : Nat) : Inputs := (s.inputs[n]?).getD Inputs.idle

/-- The input ports in the current cycle (R12). -/
def State.current (s : State) : Inputs := s.inputAt 0

/-- The current cycle's inputs replaced by `c`; the cycles after it as they were. -/
def State.withCurrent (s : State) (c : Inputs) : State := { s with inputs := c :: s.inputs.tail }

/-- The response ports in a cycle whose own response record is `r`: `stage[L]` when `L` ≥ 1 (R13), `r` itself when
`L` = 0 (R66). -/
def State.ports (s : State) (r : Stage) : Stage := s.stages.getLastD r

/-- The block serves requests: a reset edge has come (R68), or there is no stage that could be unspecified (R69: with
`L` = 0 no reset is needed). -/
abbrev State.serving (s : State) : Prop := s.phase = .resetSeen ∨ s.latency = 0

/-- The contents of `L` stages in draw number `draw`: free values (R68; log 8). -/
def drawnStages (draw L : Nat) : List Stage :=
  (List.range L).map fun i =>
    ⟨Config.powerUpValid draw (i + 1), Config.powerUpResult draw (i + 1), Config.powerUpIllegal draw (i + 1)⟩

/-- The phase after a rising edge with `rst` = 0: only a reset edge ends the wait for reset (R68), and an edge before it is
a new draw. -/
def Phase.afterEdge : Phase → Phase
  | .unreset draw => .unreset (draw + 1)
  | .resetSeen => .resetSeen

/-- The stages after a rising edge with `rst` = 0 that ends a cycle whose response record is `r`: `r` enters `stage[1]` and
every stage moves one on (R65). Before the first reset edge they are unspecified: a new draw, and `r` is not served (R68).
For `L` = 0 there is no stage to change (R66). -/
def State.stagesAfterEdge (r : Stage) (s : State) : List Stage :=
  match s.phase with
  | .unreset draw => drawnStages (draw + 1) s.latency
  | .resetSeen => (r :: s.stages).dropLast

/-- A rising edge with `rst` = 0 that ends a cycle whose response record is `r` (R65, R66, R68); the host has seen the ports
of the cycle. -/
def State.clockEdge (r : Stage) (s : State) : State :=
  { stages := s.stagesAfterEdge r
    inputs := s.inputs.tail
    trace := s.trace ++ [s.ports r]
    phase := s.phase.afterEdge }

/-- A rising edge with `rst` = 1 (R67): every stage becomes (0, 0, 0), the request of the cycle is ignored, and the ports
of the cycle are what they were before the edge (log 17; for `L` = 0, zero: R66). From here on the block serves requests (R68). -/
def State.resetEdge (s : State) : State :=
  { stages := s.stages.map fun _ => Stage.empty
    inputs := s.inputs.tail
    trace := s.trace ++ [s.ports Stage.empty]
    phase := .resetSeen }

/-- A cycle in which the clock stands still (60_exceptions.md R63): the stages keep their contents, nothing is sampled. -/
def State.freeze (s : State) : State := { s with inputs := s.inputs.tail }

/-- The one way a request is served: its response record enters the pipeline (R64, R65). -/
def respond (r : Stage) (s : State) : Host.Outcome State Fault Refusal := .next (s.clockEdge r)

/-- A block of latency `L` that powers up with draw number `draw`: free contents, no reset edge yet (R68; log 8). -/
def State.powerUp (draw L : Nat) : State := ⟨drawnStages draw L, [], [], .unreset draw⟩

end Sys2Proof.Machine
end

