-- ==== Sys2Proof/Machine/BitReverse.lean ====
section
/-! DEFINITION. Bit reversal: the normative function (41_bit_reverse.md R40), the reference algorithm over the mask table
(R41), and the meanings of BREV.8 to BREV.64 (R42 to R45). -/

namespace Sys2Proof.Machine

/-- `for i in 0 .. W-1: r[i] <- a[W-1-i]` on a W-bit word (R40). -/
def reverseWord {n : Nat} (v : BitVec n) : BitVec n := bitsOf n fun i => v.getLsbD (n - 1 - i)

/-- `BREV_W(a)` (R40), the normative definition. -/
def brev (W : Width) (a : Word) : Word := result (reverseWord (operand W a))

/-- One step of the reference algorithm: neighbouring g-bit groups change places (R41). -/
def swapGroups (W : Width) (v : Word) (g : Nat) : Word :=
  ((v &&& lowMask W g) <<< g) ||| ((v &&& highMask W g) >>> g)

/-- The reference algorithm run over a list of granularities (R41). -/
def brevSwarOver (W : Width) (gs : List Nat) (a : Word) : Word :=
  gs.foldl (swapGroups W) (result (operand W a))

/-- `BREV_SWAR_W(a)`: g from W/2 down to 1 (R41). One conforming implementation of `brev`; no meaning calls it (log 13). -/
def brevSwar (W : Width) (a : Word) : Word := brevSwarOver W (granularities W).reverse a

/-- BREV.8's response (R42). -/
def respBrev8 (a : Word) : Stage := answer (brev .w8 a)

/-- BREV.16's response (R43). -/
def respBrev16 (a : Word) : Stage := answer (brev .w16 a)

/-- BREV.32's response (R44). -/
def respBrev32 (a : Word) : Stage := answer (brev .w32 a)

/-- BREV.64's response (R45). -/
def respBrev64 (a : Word) : Stage := answer (brev .w64 a)

/-- BREV.8 (R42). -/
def execBrev8 (a : Word) (s : State) : Host.Outcome State Fault Refusal := respond (respBrev8 a) s

/-- BREV.16 (R43). -/
def execBrev16 (a : Word) (s : State) : Host.Outcome State Fault Refusal := respond (respBrev16 a) s

/-- BREV.32 (R44). -/
def execBrev32 (a : Word) (s : State) : Host.Outcome State Fault Refusal := respond (respBrev32 a) s

/-- BREV.64 (R45). -/
def execBrev64 (a : Word) (s : State) : Host.Outcome State Fault Refusal := respond (respBrev64 a) s

end Sys2Proof.Machine
end

