-- ==== Sys2Proof/Machine/Popcount.lean ====
section
/-! DEFINITION. Population count: the normative function (42_popcount.md R47), the reference algorithm over the mask table
(R48), and the meanings of POPCNT.8 to POPCNT.64 (R50 to R53). -/

namespace Sys2Proof.Machine

/-- `for i in 0 .. k-1: c <- c + zext_7(v[i])` from c = 0 (R47). -/
def countBelow {n : Nat} (v : BitVec n) : Nat → BitVec 7
  | 0 => 0#7
  | k + 1 => countBelow v k + (BitVec.ofBool (v.getLsbD k)).setWidth 7

/-- The number of 1 bits of a word of at most 64 bits, as the 7-bit count of R47. -/
def countWord {n : Nat} (v : BitVec n) : BitVec 7 := countBelow v n

/-- `POPCNT_W(a)` (R47), the normative definition. -/
def popcnt (W : Width) (a : Word) : Word := result (countWord (operand W a))

/-- One step of the reference algorithm: neighbouring g-bit sub-counts are added, `HIGH(W,g) >> g` evaluated first
(R48; 90_conflicts.md C1). -/
def addGroups (W : Width) (v : Word) (g : Nat) : Word :=
  (v &&& lowMask W g) + ((v >>> g) &&& (highMask W g >>> g))

/-- The reference algorithm run over a list of granularities (R48). -/
def popcntSwarOver (W : Width) (gs : List Nat) (a : Word) : Word :=
  gs.foldl (addGroups W) (result (operand W a))

/-- `POPCNT_SWAR_W(a)`: g from 1 up to W/2, and no extraction after the last step (R48; C5). One conforming implementation
of `popcnt`; no meaning calls it (log 13). -/
def popcntSwar (W : Width) (a : Word) : Word := popcntSwarOver W (granularities W) a

/-- POPCNT.8's response (R50). -/
def respPopcnt8 (a : Word) : Stage := answer (popcnt .w8 a)

/-- POPCNT.16's response (R51). -/
def respPopcnt16 (a : Word) : Stage := answer (popcnt .w16 a)

/-- POPCNT.32's response (R52). -/
def respPopcnt32 (a : Word) : Stage := answer (popcnt .w32 a)

/-- POPCNT.64's response (R53). -/
def respPopcnt64 (a : Word) : Stage := answer (popcnt .w64 a)

/-- POPCNT.8 (R50). -/
def execPopcnt8 (a : Word) (s : State) : Host.Outcome State Fault Refusal := respond (respPopcnt8 a) s

/-- POPCNT.16 (R51). -/
def execPopcnt16 (a : Word) (s : State) : Host.Outcome State Fault Refusal := respond (respPopcnt16 a) s

/-- POPCNT.32 (R52). -/
def execPopcnt32 (a : Word) (s : State) : Host.Outcome State Fault Refusal := respond (respPopcnt32 a) s

/-- POPCNT.64 (R53). -/
def execPopcnt64 (a : Word) (s : State) : Host.Outcome State Fault Refusal := respond (respPopcnt64 a) s

end Sys2Proof.Machine
end

