-- ==== Sys2Proof/Machine/Reserved.lean ====
section
/-! DEFINITION. The meaning of a reserved request (30_encoding.md R36, 60_exceptions.md R56). -/

namespace Sys2Proof.Machine

/-- The response to a reserved op: the same for every reserved op and every operand (R56; 95_test_vectors.md §4). -/
def respReserved (_op : BitVec 4) (_a : Word) : Stage := reservedAnswer

/-- A reserved request: accepted like any other, answered (0, 1) (R36, R56). The block's exact answer, no fault (log 6). -/
def execReserved (op : BitVec 4) (a : Word) (s : State) : Host.Outcome State Fault Refusal := respond (respReserved op a) s

end Sys2Proof.Machine
end

