-- ==== Sys2Proof/Machine/Dispatch.lean ====
section
/-! DEFINITION. One arm per constructor of Instr, each one call of its meaning. -/

namespace Sys2Proof.Machine

-- The effect of a rising edge with rst = 0 that ends a cycle presenting the request i (R64, R65; before the first
-- reset edge the request is not served: R68).
def exec (i : Instr) (s : State) : Host.Outcome State Fault Refusal :=
  match i with
  | .brev8 a => Sys2Proof.Machine.execBrev8 a s
  | .brev16 a => Sys2Proof.Machine.execBrev16 a s
  | .brev32 a => Sys2Proof.Machine.execBrev32 a s
  | .brev64 a => Sys2Proof.Machine.execBrev64 a s
  | .popcnt8 a => Sys2Proof.Machine.execPopcnt8 a s
  | .popcnt16 a => Sys2Proof.Machine.execPopcnt16 a s
  | .popcnt32 a => Sys2Proof.Machine.execPopcnt32 a s
  | .popcnt64 a => Sys2Proof.Machine.execPopcnt64 a s
  | .reserved op a => Sys2Proof.Machine.execReserved op a s

end Sys2Proof.Machine
end

