-- ==== Sys2Proof/WellFormed.lean ====
section
/-! DEFINITION. Which terms of `Instr` are requests of the machine. -/

namespace Sys2Proof

/-- The one check: a reserved request's op is one of the eight reserved values 1000 to 1111 (30_encoding.md R36, R38).
Every operand is legal for every operation (R36). -/
def Instr.wellFormed : Instr → Bool
  | .brev8 _ => true
  | .brev16 _ => true
  | .brev32 _ => true
  | .brev64 _ => true
  | .popcnt8 _ => true
  | .popcnt16 _ => true
  | .popcnt32 _ => true
  | .popcnt64 _ => true
  | .reserved op _ => decide (8 ≤ op.toNat)

end Sys2Proof
end

