-- ==== Sys2Proof/Decode.lean ====
section
/-! DEFINITION. Decoding of requests and of input cycles, the encoder, and the opcode table's rows
(30_encoding.md R32 to R39; spec/opcode_table.json). -/

namespace Sys2Proof

/-- `req_op[3:2]` (R32). -/
def opFunc (op : BitVec 4) : BitVec 2 := op.extractLsb' 2 2

/-- `req_op[1:0]` (R32). -/
def opWsel (op : BitVec 4) : BitVec 2 := op.extractLsb' 0 2

/-- `W = 8 << zext(wsel)` (R34). -/
def Width.ofSel (wsel : BitVec 2) : Width :=
  match wsel.toNat with
  | 0 => .w8
  | 1 => .w16
  | 2 => .w32
  | _ => .w64

/-- The bit reversal of width W (R33, func 00). -/
def brevOf (W : Width) (a : Word) : Instr :=
  match W with
  | .w8 => .brev8 a
  | .w16 => .brev16 a
  | .w32 => .brev32 a
  | .w64 => .brev64 a

/-- The population count of width W (R33, func 01). -/
def popcntOf (W : Width) (a : Word) : Instr :=
  match W with
  | .w8 => .popcnt8 a
  | .w16 => .popcnt16 a
  | .w32 => .popcnt32 a
  | .w64 => .popcnt64 a

/-- The request decoder, total: every op is one of the eight operations or reserved (R33, R36, R39). -/
def decode (r : Request) : Instr :=
  if opFunc r.op = 0b00#2 then brevOf (Width.ofSel (opWsel r.op)) r.a
  else if opFunc r.op = 0b01#2 then popcntOf (Width.ofSel (opWsel r.op)) r.a
  else .reserved r.op r.a

/-- Why a cycle runs no request. -/
inductive NoRequest where
  /-- No rising edge ends the cycle: nothing is sampled (60_exceptions.md R63). -/
  | clockStopped
  /-- `rst` = 1: the request inputs are ignored (70_reset_and_hazards.md R67; R58: reset takes precedence). -/
  | inReset
  /-- `req_valid` = 0 (10_state.md R12). -/
  | noValid
deriving DecidableEq, Repr

/-- What a cycle asks of the block: the request it presents, or by name why it presents none. Total on any inputs. -/
def decodeInputs (c : Inputs) : Except NoRequest Instr :=
  if c.clk = false then .error .clockStopped
  else if c.rst then .error .inReset
  else if c.reqValid then .ok (decode ⟨c.reqOp, c.reqA⟩)
  else .error .noValid

/-- The encoder: the port values of a request, from the opcode map of R39. -/
def encode : Instr → Request
  | .brev8 a => ⟨0b0000#4, a⟩
  | .brev16 a => ⟨0b0001#4, a⟩
  | .brev32 a => ⟨0b0010#4, a⟩
  | .brev64 a => ⟨0b0011#4, a⟩
  | .popcnt8 a => ⟨0b0100#4, a⟩
  | .popcnt16 a => ⟨0b0101#4, a⟩
  | .popcnt32 a => ⟨0b0110#4, a⟩
  | .popcnt64 a => ⟨0b0111#4, a⟩
  | .reserved op a => ⟨op, a⟩

/-- The cycle that presents a request: `req_valid` = 1, `rst` = 0 (the table's qualifier). -/
def Request.inputs (r : Request) : Inputs := ⟨true, false, true, r.op, r.a⟩

/-- A request as one 68-bit word, `req_op` in bits 3:0 as spec/opcode_table.json numbers them and `req_a` above it
(DESIGN CHOICE, log 9: the spec gives the two fields as separate ports). -/
def Request.toWord (r : Request) : BitVec 68 := (r.a.setWidth 68 <<< 4) ||| r.op.setWidth 68

/-- The request a 68-bit word holds (log 9). -/
def Request.ofWord (w : BitVec 68) : Request := ⟨w.extractLsb' 0 4, w.extractLsb' 4 64⟩

/-- The 68-bit word whose low `nbits` bits are those of `w` and whose other bits are 0. -/
def tableWord (nbits w : Nat) : BitVec 68 := BitVec.ofNat 68 (w % 2 ^ nbits)

/-- The instruction the decoder reads from a table word of `nbits` bits; none where the word has a bit no request has. -/
def decodeTableWord (nbits w : Nat) : Option Instr :=
  if w % 2 ^ nbits < 2 ^ 68 then some (decode (Request.ofWord (tableWord nbits w))) else none

/-- A row of spec/opcode_table.json: a word matches it if `op &&& mask = pattern`. -/
structure OpcodeRow where
  mnemonic : String
  pattern : BitVec 4
  mask : BitVec 4
deriving DecidableEq, Repr

/-- The nine rows of spec/opcode_table.json, in its order. -/
def opcodeTable : List OpcodeRow :=
  [⟨"BREV.8", 0x0#4, 0xF#4⟩, ⟨"BREV.16", 0x1#4, 0xF#4⟩, ⟨"BREV.32", 0x2#4, 0xF#4⟩, ⟨"BREV.64", 0x3#4, 0xF#4⟩,
   ⟨"POPCNT.8", 0x4#4, 0xF#4⟩, ⟨"POPCNT.16", 0x5#4, 0xF#4⟩, ⟨"POPCNT.32", 0x6#4, 0xF#4⟩, ⟨"POPCNT.64", 0x7#4, 0xF#4⟩,
   ⟨"RESERVED", 0x8#4, 0x8#4⟩]

/-- A request's op matches a row of the table. -/
def OpcodeRow.accepts (row : OpcodeRow) (op : BitVec 4) : Bool := op &&& row.mask == row.pattern

/-- The table's name of an instruction. -/
def Instr.mnemonic : Instr → String
  | .brev8 _ => "BREV.8"
  | .brev16 _ => "BREV.16"
  | .brev32 _ => "BREV.32"
  | .brev64 _ => "BREV.64"
  | .popcnt8 _ => "POPCNT.8"
  | .popcnt16 _ => "POPCNT.16"
  | .popcnt32 _ => "POPCNT.32"
  | .popcnt64 _ => "POPCNT.64"
  | .reserved _ _ => "RESERVED"

end Sys2Proof
end

