-- ==== Sys2Proof/Machine/Response.lean ====
section
/-! DEFINITION. The response record of a cycle and the output ports (70_reset_and_hazards.md R64, R66; 10_state.md R13). -/

namespace Sys2Proof.Machine

/-- The response record of each request: the same record its meaning puts into the pipeline. -/
def respOf : Instr → Stage
  | .brev8 a => respBrev8 a
  | .brev16 a => respBrev16 a
  | .brev32 a => respBrev32 a
  | .brev64 a => respBrev64 a
  | .popcnt8 a => respPopcnt8 a
  | .popcnt16 a => respPopcnt16 a
  | .popcnt32 a => respPopcnt32 a
  | .popcnt64 a => respPopcnt64 a
  | .reserved op a => respReserved op a

/-- `resp(req_valid, op, a)` (R64). -/
def resp (valid : Bool) (op : BitVec 4) (a : Word) : Stage :=
  if valid then respOf (decode ⟨op, a⟩) else Stage.empty

/-- What the combinational path answers in a cycle: nothing while `rst` = 1 (R66). -/
def combinational (c : Inputs) : Stage :=
  if c.rst then Stage.empty else resp c.reqValid c.reqOp c.reqA

/-- `(rsp_valid, rsp_y, rsp_illegal)` in the current cycle: `stage[L]`, or for `L` = 0 the combinational answer
(R13, R66). -/
def State.outputs (s : State) : Stage := s.ports (combinational s.current)

end Sys2Proof.Machine
end

