-- ==== Sys2Proof/Machine/Step.lean ====
section
/-! DEFINITION. One cycle of the block (70_reset_and_hazards.md R64 to R67; 60_exceptions.md R63). -/

namespace Sys2Proof.Machine

/-- One cycle: the request it presents is executed; a reset edge clears the pipeline; an idle edge moves the pipeline on
with the empty record; a stopped clock changes nothing but the passing of the cycle. Before the first reset edge an edge
with `rst` = 0 serves nothing and leaves the stages unspecified (R68, in `State.stagesAfterEdge`). -/
def step (s : State) : Host.Outcome State Fault Refusal :=
  match decodeInputs s.current with
  | .ok i => exec i s
  | .error .clockStopped => .next s.freeze
  | .error .inReset => .next s.resetEdge
  | .error .noValid => .next (s.clockEdge Stage.empty)

/-- The table word presented as the current cycle's request, so that the very next step runs it (log 9, log 2). -/
def State.withFetchWord (s : State) (nbits w : Nat) : State :=
  s.withCurrent (Request.ofWord (tableWord nbits w)).inputs

end Sys2Proof.Machine
end

