-- ==== Sys2Proof/Machine/Assembler.lean ====
section
/-! DEFINITION. The assembler syntax of 30_encoding.md R38: a line of text, and the input cycle it stands for. -/

namespace Sys2Proof.Machine

/-- The input cycle of a line (R38). The inputs a line leaves open (`any (ignored)`) are assembled as 0 (log 11). -/
def lineInputs : Line → Inputs
  | .request i => (encode i).inputs
  | .idle => Inputs.idle
  | .reset => { Inputs.idle with rst := true }

/-- The value of a digit in a base of at most 16; none for any other character. Letters are lower case. -/
def digitValue (base : Nat) (c : Char) : Option Nat :=
  let v := if 48 ≤ c.toNat ∧ c.toNat ≤ 57 then c.toNat - 48
    else if 97 ≤ c.toNat ∧ c.toNat ≤ 102 then c.toNat - 87
    else base
  if v < base then some v else none

/-- The value of a row of digits read after the value `acc`. -/
def digitsValue (base : Nat) (acc : Nat) : List Char → Option Nat
  | [] => some acc
  | c :: cs => (digitValue base c).bind fun v => digitsValue base (acc * base + v) cs

/-- `<a>`: a 64-bit unsigned literal in C hexadecimal or binary notation (R38). -/
def parseOperand : List Char → Option Word
  | '0' :: 'x' :: d :: ds => ((digitsValue 16 0 (d :: ds)).filter (· < 2 ^ 64)).map (BitVec.ofNat 64)
  | '0' :: 'b' :: d :: ds => ((digitsValue 2 0 (d :: ds)).filter (· < 2 ^ 64)).map (BitVec.ofNat 64)
  | _ => none

/-- `<op>` of a `rsv` line: op ∈ 8..15, in decimal as 95_test_vectors.md §6 writes it (R38; log 11). -/
def parseReservedOp : List Char → Option (BitVec 4)
  | [] => none
  | d :: ds => ((digitsValue 10 0 (d :: ds)).filter fun n => 8 ≤ n && n < 16).map (BitVec.ofNat 4)

/-- The operation a mnemonic names, as a function of its operand (R38). -/
def parseMnemonic (m : List Char) : Option (Word → Instr) :=
  if m = "brev.8".toList then some .brev8
  else if m = "brev.16".toList then some .brev16
  else if m = "brev.32".toList then some .brev32
  else if m = "brev.64".toList then some .brev64
  else if m = "popcnt.8".toList then some .popcnt8
  else if m = "popcnt.16".toList then some .popcnt16
  else if m = "popcnt.32".toList then some .popcnt32
  else if m = "popcnt.64".toList then some .popcnt64
  else none

/-- The words of a line, separated by one or more spaces; `word` is the one being read, last character first. -/
def splitWords (word : List Char) : List Char → List (List Char)
  | [] => if word.isEmpty then [] else [word.reverse]
  | c :: cs =>
    if c = ' ' then (if word.isEmpty then splitWords [] cs else word.reverse :: splitWords [] cs)
    else splitWords (c :: word) cs

/-- The words of a line as a line of the syntax (R38); none where they are no line of it. -/
def parseWords : List (List Char) → Option Line
  | [m] =>
    if m = "idle".toList then some .idle
    else if m = "reset".toList then some .reset
    else none
  | [m, a] => (parseMnemonic m).bind fun i => (parseOperand a).map fun v => .request (i v)
  | [m, op, a] =>
    if m = "rsv".toList then
      (parseReservedOp op).bind fun o => (parseOperand a).map fun v => .request (.reserved o v)
    else none
  | _ => none

/-- A line of text; mnemonics are case-insensitive (R38), and letters of literals too (log 11). -/
def parseLine (text : List Char) : Option Line := parseWords (splitWords [] (text.map Char.toLower))

end Sys2Proof.Machine
end

