-- ==== Sys2Proof/Safety.lean ====
section
/-! DEFINITION. The terms claims are made in: what an edge does to the pipeline in the words of the rules, when a stage is
clean, when a run is over, and what the host observes (10_state.md R14; 70_reset_and_hazards.md R65, R74). -/

namespace Sys2Proof.Machine

/-- What a rising edge with `rst` = 0 leaves in a serving block, in the words of R65 and R66, for a cycle whose response record is `r`:
`stage'[1] <- r`, `stage'[k+1] <- stage[k]` for 1 ≤ k < L, and nothing else of the block; the next cycle's inputs are
current, and the host has seen the cycle's ports (`stage[L]`, or `r` itself for `L` = 0). These clauses determine `t`.
The clauses about `inputs`, `trace` and `phase` are the model's own form (logs 2, 4 and 8); the others are R65's. -/
structure EdgeTakes (s : State) (r : Stage) (t : State) : Prop where
  latency_eq : t.latency = s.latency
  stage_one : 1 ≤ s.latency → t.stage 1 = r
  stage_succ : ∀ k, 1 ≤ k → k < s.latency → t.stage (k + 1) = s.stage k
  inputs_eq : t.inputs = s.inputs.tail
  trace_eq : t.trace = s.trace ++ [if s.latency = 0 then r else s.stage s.latency]
  phase_eq : t.phase = s.phase.afterEdge

/-- A run of `n` cycles (R74), stopping at the first stop: the host's own run of the machine. -/
def runCycles (n : Nat) (s : State) : Host.Outcome State Fault Refusal := Host.Core.run Sys2Proof.core n s

/-- A cycle that ends in a rising edge with `rst` = 0. -/
abbrev Inputs.running (c : Inputs) : Prop := c.clk = true ∧ c.rst = false

/-- A running cycle that presents the request `i` (the table's qualifier: `req_valid` = 1, `rst` = 0). -/
abbrev Inputs.presents (c : Inputs) (i : Instr) : Prop :=
  Inputs.running c ∧ c.reqValid = true ∧ decode ⟨c.reqOp, c.reqA⟩ = i

/-- R14 for one stage: if `v` = 0 then `y` = 0 and `ill` = 0. -/
abbrev Stage.clean (r : Stage) : Prop := r.v = false → r.y = 0#64 ∧ r.ill = false

/-- The invariant of R14: every stage is clean. -/
abbrev State.clean (s : State) : Prop := ∀ r ∈ s.stages, Stage.clean r

/-- No response is in flight (R74: the run is over). -/
abbrev State.drained (s : State) : Prop := ∀ r ∈ s.stages, r.v = false

/-- The observation of R74: the responses among the ports' values, a response being a cycle with `rsp_valid` = 1 (R9). -/
def responses (trace : List Stage) : List Stage := trace.filter (·.v)

/-- The responses a host is owed for a row of running cycles: one for each request, in order (R28). -/
def owed (cs : List Inputs) : List Stage :=
  (cs.filter (·.reqValid)).map fun c => respOf (decode ⟨c.reqOp, c.reqA⟩)

/-- A host program is safe if it never saw a reserved-op response (R56: such a response may be treated as the program's
fault). -/
abbrev State.hostSafe (s : State) : Prop := ∀ r ∈ s.trace, r.ill = false

/-- The number of 1 bits of `v` among the positions `lo`, ..., `lo + n - 1` (R8's popcount of a bit field). -/
def fieldCount (v : Word) (lo n : Nat) : Nat := (List.range n).countP fun i => v.getLsbD (lo + i)

/-- The independent reference method of R54: repeated `v & 1` and shift, `n` times. -/
def shiftCount : Nat → Word → Nat
  | 0, _ => 0
  | n + 1, v => (v &&& 1#64).toNat + shiftCount n (v >>> 1)

/-- The clear-lowest-set-bit operation that R54 names for host-side checks; no operation of the block (R5). -/
def clearLowest (v : Word) : Word := v &&& (v - 1#64)

end Sys2Proof.Machine
end

