-- ==== Sys2Proof/Certificates/Slice0/Obligations.lean ====
section
/-! DEFINITION. The statements about bitmanip_alu, made from the numbered rules of spec/. -/

open Sys2Proof Sys2Proof.Machine

/-! ### Encoding -/

/-- R33, R34: `func` picks the sub-operation, `wsel` the width `8 << wsel`, and func 10 and 11 are reserved. -/
def Obligations.FuncAndWselSelectOperation : Prop :=
  (∀ w : BitVec 2, (Width.ofSel w).bits = 8 <<< w.toNat) ∧
  ∀ (op : BitVec 4) (a : Word),
    (op.extractLsb' 2 2 = 0b00#2 → decode ⟨op, a⟩ = brevOf (Width.ofSel (op.extractLsb' 0 2)) a) ∧
    (op.extractLsb' 2 2 = 0b01#2 → decode ⟨op, a⟩ = popcntOf (Width.ofSel (op.extractLsb' 0 2)) a) ∧
    (op.extractLsb' 2 2 = 0b10#2 ∨ op.extractLsb' 2 2 = 0b11#2 → decode ⟨op, a⟩ = .reserved op a)

/-- R36, R39: each of the 16 op values matches exactly one of the opcode table's nine rows, the row that bears the name of
the instruction the decoder gives. -/
def Obligations.EachOpMatchesItsOwnRow : Prop :=
  ∀ (op : BitVec 4) (a : Word) (row : OpcodeRow), row ∈ opcodeTable →
    (row.accepts op = true ↔ row.mnemonic = (decode ⟨op, a⟩).mnemonic)

/-- The encoder and the decoder agree on every well-formed request, through the packed 68-bit word (the packing is the
model's choice, log 9): no bit of op or operand is dropped. -/
def Obligations.DecodeOfEncodedRequest : Prop :=
  ∀ i : Instr, i.wellFormed = true → decode (Request.ofWord (encode i).toWord) = i

/-- The other direction: every 68-bit word decodes to a well-formed request whose encoding is that word (log 9). -/
def Obligations.EncodeOfDecodedWord : Prop :=
  ∀ w : BitVec 68, (decode (Request.ofWord w)).wellFormed = true ∧ (encode (decode (Request.ofWord w))).toWord = w

/-- Sanity: a few requests written out from R39's map. -/
def Obligations.SampleWordsDecode : Prop :=
  decodeTableWord 8 0b0000 = some (.brev8 0#64) ∧ decodeTableWord 8 0b0011 = some (.brev64 0#64) ∧
  decodeTableWord 8 0b0110 = some (.popcnt32 0#64) ∧ decodeTableWord 8 0b1101 = some (.reserved 0b1101#4 0#64) ∧
  decode ⟨0b0111#4, 0x0123456789ABCDEF#64⟩ = .popcnt64 0x0123456789ABCDEF#64

/-- R38: the cycles that the lines of the assembler syntax stand for (the text forms themselves are tried in the tests). -/
def Obligations.AssembledLinesPresentTheirCycle : Prop :=
  (∀ i : Instr, i.wellFormed = true → Inputs.presents (lineInputs (.request i)) i) ∧
  decodeInputs (lineInputs .idle) = .error .noValid ∧ (lineInputs .reset).rst = true ∧
  decodeInputs (lineInputs .reset) = .error .inReset

/-! ### The mask table and the bit functions -/

/-- R19, R20: which entries the mask table has (each width, each power of two g below it) and what each of them holds. -/
def Obligations.MaskTableEntriesFollowFormula : Prop :=
  (∀ (W : Width) (g : Nat), (maskEntry W g).isSome = true ↔ ∃ k, g = 2 ^ k ∧ g < W.bits) ∧
  ∀ (W : Width) (g : Nat), (maskEntry W g).isSome = true →
    (∀ i, i < W.bits → (lowMask W g).getLsbD i = decide (i / g % 2 = 0)) ∧
    highMask W g = (~~~(lowMask W g)) &&& ones W.bits ∧
    lowMask W g ^^^ highMask W g = ones W.bits ∧ lowMask W g &&& highMask W g = 0#64

/-- R21, R6: the table has 18 entries, those of the listed granularities, and the entries of a width are the low W bits of
the 64-bit entries. -/
def Obligations.MaskTableSizeAndNesting : Prop :=
  maskRom.length = 18 ∧
  (∀ (W : Width) (g : Nat), (maskEntry W g).isSome = true ↔ g ∈ granularities W) ∧
  ∀ (W : Width) (g : Nat), g ∈ granularities W →
    lowMask W g = lowMask .w64 g &&& ones W.bits ∧ highMask W g = highMask .w64 g &&& ones W.bits

/-- R22: the three identities of every entry. -/
def Obligations.MaskTableShiftIdentities : Prop :=
  ∀ (W : Width) (g : Nat), (maskEntry W g).isSome = true →
    highMask W g >>> g = lowMask W g ∧
    (lowMask W g <<< g) &&& ones W.bits = highMask W g ∧
    ∀ v : Word, v.toNat < 2 ^ W.bits → (v &&& highMask W g) >>> g = (v >>> g) &&& lowMask W g

/-- R41: the group-swap algorithm over the mask table computes bit reversal in log2(W) steps, from W/2 down to 1 or from 1
up to W/2, and no intermediate value leaves the W low bits. -/
def Obligations.GroupSwapComputesReversal : Prop :=
  ∀ (W : Width) (a : Word),
    brevSwar W a = brev W a ∧ brevSwarOver W (granularities W) a = brev W a ∧
    2 ^ (granularities W).length = W.bits ∧
    ∀ gs : List Nat, gs <+: (granularities W).reverse → (brevSwarOver W gs a).toNat < 2 ^ W.bits

/-- R41: "The order of the g steps does not matter": every order of a width's steps gives the reversal. -/
def Obligations.GroupSwapOrderDoesNotMatter : Prop :=
  ∀ (W : Width) (gs : List Nat) (a : Word), gs.Perm (granularities W) → brevSwarOver W gs a = brev W a

/-- R48: the parallel-sum algorithm over the mask table computes the population count, with no extraction step. -/
def Obligations.ParallelSumComputesPopcount : Prop :=
  ∀ (W : Width) (a : Word), popcntSwar W a = popcnt W a

/-- R48: the three writings of a step agree on W-bit values, and the other grouping of the source's formula is wrong on the
rule's own example (90_conflicts.md C1). -/
def Obligations.ParallelSumStepForms : Prop :=
  (∀ (W : Width) (g : Nat) (v : Word), g ∈ granularities W → v.toNat < 2 ^ W.bits →
    addGroups W v g = (v &&& lowMask W g) + ((v >>> g) &&& lowMask W g) ∧
    addGroups W v g = (v &&& lowMask W g) + ((v &&& highMask W g) >>> g)) ∧
  popcntSwar .w8 0xFF#64 = 8#64 ∧
  (granularities .w8).foldl (fun (v : Word) g => (v &&& lowMask .w8 g) + (((v >>> g) &&& highMask .w8 g) >>> g)) 0xFF#64 = 4#64

/-- R49: after the steps up to granularity g, every 2g-bit field of the word holds the popcount of the same bits of the
operand, at most 2g, which fits the field; the value stays below 2^W; both addends of the step hold at most g in each
field, and their 64-bit sum does not wrap. `gs` are the steps before g. -/
def Obligations.ParallelSumFieldBound : Prop :=
  ∀ (W : Width) (gs : List Nat) (g : Nat) (a : Word), (gs ++ [g]) <+: granularities W →
    (popcntSwarOver W (gs ++ [g]) a).toNat < 2 ^ W.bits ∧
    (popcntSwarOver W gs a &&& lowMask W g).toNat + ((popcntSwarOver W gs a >>> g) &&& lowMask W g).toNat < 2 ^ W.bits ∧
    2 * g < 2 ^ (2 * g) ∧
    ∀ j, j < W.bits / (2 * g) →
      (popcntSwarOver W (gs ++ [g]) a).toNat / 2 ^ (2 * g * j) % 2 ^ (2 * g) = fieldCount a (2 * g * j) (2 * g) ∧
      fieldCount a (2 * g * j) (2 * g) ≤ 2 * g ∧
      (popcntSwarOver W gs a &&& lowMask W g).toNat / 2 ^ (2 * g * j) % 2 ^ (2 * g) ≤ g ∧
      ((popcntSwarOver W gs a >>> g) &&& lowMask W g).toNat / 2 ^ (2 * g * j) % 2 ^ (2 * g) ≤ g

/-- R46: the laws of bit reversal. -/
def Obligations.ReversalLaws : Prop :=
  ∀ W : Width,
    (∀ v : Word, v.toNat < 2 ^ W.bits → brev W (brev W v) = v) ∧
    brev W 0#64 = 0#64 ∧ brev W (ones W.bits) = ones W.bits ∧
    (∀ i, i < W.bits → brev W (1#64 <<< i) = 1#64 <<< (W.bits - 1 - i)) ∧
    (∀ a : Word, fieldCount (brev W a) 0 64 = fieldCount a 0 W.bits) ∧
    ∀ a : Word, brev W a = brev .w64 (a &&& ones W.bits) >>> (64 - W.bits)

/-- R54: popcount correctness against an independent method, its boundary cases and its bound. -/
def Obligations.PopcountCorrectAndBounded : Prop :=
  ∀ W : Width,
    (∀ a : Word, (popcnt W a).toNat = shiftCount W.bits a) ∧
    popcnt W 0#64 = 0#64 ∧ (popcnt W (ones W.bits)).toNat = W.bits ∧
    ∀ a : Word, (popcnt W a).toNat ≤ W.bits ∧ ((popcnt W a).toNat = W.bits ↔ a &&& ones W.bits = ones W.bits)

/-- R54: additivity under disjoint masks that cover the 1 bits, its special case over each table entry, and invariance
under reversal. -/
def Obligations.PopcountAdditive : Prop :=
  ∀ W : Width,
    (∀ v m1 m2 : Word, m1 &&& m2 = 0#64 → v &&& (m1 ||| m2) = v → popcnt W (v &&& m1) + popcnt W (v &&& m2) = popcnt W v) ∧
    (∀ (a : Word) (g : Nat), g ∈ granularities W →
      popcnt W a = popcnt W (a &&& lowMask W g) + popcnt W (a &&& highMask W g)) ∧
    ∀ a : Word, popcnt W a = popcnt W (brev W a)

/-- R54: clearing the lowest set bit reaches 0 after exactly the popcount of the value, and not before. -/
def Obligations.ClearLowestReachesZeroAtPopcount : Prop :=
  ∀ (W : Width) (v : Word), v.toNat < 2 ^ W.bits →
    ∀ n, clearLowest^[n] v = 0#64 ↔ (popcnt W v).toNat ≤ n

/-- R35: operand bits above W have no effect, and the result is zero-extended from W bits (BREV) or 7 bits (POPCNT). -/
def Obligations.OperandTruncatedResultZeroExtended : Prop :=
  ∀ (W : Width) (a : Word),
    (∀ b : Word, (∀ i, i < W.bits → a.getLsbD i = b.getLsbD i) → brev W a = brev W b ∧ popcnt W a = popcnt W b) ∧
    (∀ i, W.bits ≤ i → (brev W a).getLsbD i = false) ∧ ∀ i, 7 ≤ i → (popcnt W a).getLsbD i = false

/-! ### What each request does: it completes, with this result

In a block that serves requests: after the first reset edge, or with `L` = 0 (R68, R69). What a request does
before it: `RequestBeforeFirstResetCompletesAndBlockWaits`. -/

/-- R42: encoding, completion with this response in every serving block (R68, R69) by the edge of R65 and R66 (the
trace, input-list and phase clauses of EdgeTakes are the model's, logs 2, 4 and 8),
the result bit by bit, the rule's corner cases and example. -/
def Obligations.Brev8ReversesLow8Bits : Prop :=
  ∀ (a : Word) (s : State),
    decode ⟨0b0000#4, a⟩ = .brev8 a ∧
    (s.serving → ∃ t, exec (.brev8 a) s = .next t ∧ EdgeTakes s ⟨true, brev .w8 a, false⟩ t) ∧
    (∀ i, i < 8 → (brev .w8 a).getLsbD i = a.getLsbD (7 - i)) ∧
    (∀ i, 8 ≤ i → (brev .w8 a).getLsbD i = false) ∧
    brev .w8 0#64 = 0#64 ∧
    brev .w8 0xFF#64 = 0xFF#64 ∧
    brev .w8 0x81#64 = 0x81#64 ∧
    brev .w8 0x3C#64 = 0x3C#64 ∧
    brev .w8 0xA5#64 = 0xA5#64 ∧
    brev .w8 0xFFFFFFFFFFFFFF80#64 = 0x01#64 ∧
    brev .w8 0b10000000#64 = 0b00000001#64

/-- R43: encoding, completion with this response in every serving block (R68, R69) by the edge of R65 and R66 (the
trace, input-list and phase clauses of EdgeTakes are the model's, logs 2, 4 and 8),
the result bit by bit, the rule's corner cases and example. -/
def Obligations.Brev16ReversesLow16Bits : Prop :=
  ∀ (a : Word) (s : State),
    decode ⟨0b0001#4, a⟩ = .brev16 a ∧
    (s.serving → ∃ t, exec (.brev16 a) s = .next t ∧ EdgeTakes s ⟨true, brev .w16 a, false⟩ t) ∧
    (∀ i, i < 16 → (brev .w16 a).getLsbD i = a.getLsbD (15 - i)) ∧
    (∀ i, 16 ≤ i → (brev .w16 a).getLsbD i = false) ∧
    brev .w16 0#64 = 0#64 ∧
    brev .w16 0xFFFF#64 = 0xFFFF#64 ∧
    brev .w16 0x0001#64 = 0x8000#64 ∧
    brev .w16 0x8000#64 = 0x0001#64 ∧
    brev .w16 0x00FF#64 = 0xFF00#64 ∧
    brev .w16 0xFFFFFFFFFFFF0001#64 = 0x8000#64 ∧
    brev .w16 0x1234#64 = 0x2C48#64

/-- R44: encoding, completion with this response in every serving block (R68, R69) by the edge of R65 and R66 (the
trace, input-list and phase clauses of EdgeTakes are the model's, logs 2, 4 and 8),
the result bit by bit, the rule's corner cases and example. -/
def Obligations.Brev32ReversesLow32Bits : Prop :=
  ∀ (a : Word) (s : State),
    decode ⟨0b0010#4, a⟩ = .brev32 a ∧
    (s.serving → ∃ t, exec (.brev32 a) s = .next t ∧ EdgeTakes s ⟨true, brev .w32 a, false⟩ t) ∧
    (∀ i, i < 32 → (brev .w32 a).getLsbD i = a.getLsbD (31 - i)) ∧
    (∀ i, 32 ≤ i → (brev .w32 a).getLsbD i = false) ∧
    brev .w32 0#64 = 0#64 ∧
    brev .w32 0xFFFFFFFF#64 = 0xFFFFFFFF#64 ∧
    brev .w32 1#64 = 0x80000000#64 ∧
    brev .w32 0x0000FFFF#64 = 0xFFFF0000#64 ∧
    brev .w32 0xFFFFFFFF00000001#64 = 0x80000000#64 ∧
    brev .w32 0x12345678#64 = 0x1E6A2C48#64

/-- R45: encoding, completion with this response in every serving block (R68, R69) by the edge of R65 and R66 (the
trace, input-list and phase clauses of EdgeTakes are the model's, logs 2, 4 and 8),
the result bit by bit, the rule's corner cases and example. -/
def Obligations.Brev64ReversesAllBits : Prop :=
  ∀ (a : Word) (s : State),
    decode ⟨0b0011#4, a⟩ = .brev64 a ∧
    (s.serving → ∃ t, exec (.brev64 a) s = .next t ∧ EdgeTakes s ⟨true, brev .w64 a, false⟩ t) ∧
    (∀ i, i < 64 → (brev .w64 a).getLsbD i = a.getLsbD (63 - i)) ∧
    brev .w64 0#64 = 0#64 ∧
    brev .w64 0xFFFFFFFFFFFFFFFF#64 = 0xFFFFFFFFFFFFFFFF#64 ∧
    brev .w64 1#64 = 0x8000000000000000#64 ∧
    brev .w64 0x8000000000000001#64 = 0x8000000000000001#64 ∧
    brev .w64 0x0123456789ABCDEF#64 = 0xF7B3D591E6A2C480#64

/-- R50: encoding, completion with this response in every serving block (R68, R69) by the edge of R65 and R66 (the
trace, input-list and phase clauses of EdgeTakes are the model's, logs 2, 4 and 8),
the count, the rule's corner cases and example. -/
def Obligations.Popcnt8CountsLow8Bits : Prop :=
  ∀ (a : Word) (s : State),
    decode ⟨0b0100#4, a⟩ = .popcnt8 a ∧
    (s.serving → ∃ t, exec (.popcnt8 a) s = .next t ∧ EdgeTakes s ⟨true, popcnt .w8 a, false⟩ t) ∧
    (popcnt .w8 a).toNat = fieldCount a 0 8 ∧ (popcnt .w8 a).toNat ≤ 8 ∧
    popcnt .w8 0#64 = 0#64 ∧
    popcnt .w8 0xFF#64 = 8#64 ∧
    popcnt .w8 0x80#64 = 1#64 ∧
    popcnt .w8 0xFFFFFFFFFFFFFF00#64 = 0#64 ∧
    popcnt .w8 0b11010010#64 = 4#64

/-- R51: encoding, completion with this response in every serving block (R68, R69) by the edge of R65 and R66 (the
trace, input-list and phase clauses of EdgeTakes are the model's, logs 2, 4 and 8),
the count, the rule's corner cases and example. -/
def Obligations.Popcnt16CountsLow16Bits : Prop :=
  ∀ (a : Word) (s : State),
    decode ⟨0b0101#4, a⟩ = .popcnt16 a ∧
    (s.serving → ∃ t, exec (.popcnt16 a) s = .next t ∧ EdgeTakes s ⟨true, popcnt .w16 a, false⟩ t) ∧
    (popcnt .w16 a).toNat = fieldCount a 0 16 ∧ (popcnt .w16 a).toNat ≤ 16 ∧
    popcnt .w16 0#64 = 0#64 ∧
    popcnt .w16 0xFFFF#64 = 16#64 ∧
    popcnt .w16 0x7FFF#64 = 15#64 ∧
    popcnt .w16 0xFFFFFFFFFFFF0000#64 = 0#64 ∧
    popcnt .w16 0x1234#64 = 5#64

/-- R52: encoding, completion with this response in every serving block (R68, R69) by the edge of R65 and R66 (the
trace, input-list and phase clauses of EdgeTakes are the model's, logs 2, 4 and 8),
the count, the rule's corner cases and example. -/
def Obligations.Popcnt32CountsLow32Bits : Prop :=
  ∀ (a : Word) (s : State),
    decode ⟨0b0110#4, a⟩ = .popcnt32 a ∧
    (s.serving → ∃ t, exec (.popcnt32 a) s = .next t ∧ EdgeTakes s ⟨true, popcnt .w32 a, false⟩ t) ∧
    (popcnt .w32 a).toNat = fieldCount a 0 32 ∧ (popcnt .w32 a).toNat ≤ 32 ∧
    popcnt .w32 0#64 = 0#64 ∧
    popcnt .w32 0xFFFFFFFF#64 = 32#64 ∧
    popcnt .w32 0x55555555#64 = 16#64 ∧
    popcnt .w32 0xFFFFFFFF00000000#64 = 0#64 ∧
    popcnt .w32 0xDEADBEEF#64 = 24#64

/-- R53: encoding, completion with this response in every serving block (R68, R69) by the edge of R65 and R66 (the
trace, input-list and phase clauses of EdgeTakes are the model's, logs 2, 4 and 8),
the count, the rule's corner cases and example. -/
def Obligations.Popcnt64CountsAllBits : Prop :=
  ∀ (a : Word) (s : State),
    decode ⟨0b0111#4, a⟩ = .popcnt64 a ∧
    (s.serving → ∃ t, exec (.popcnt64 a) s = .next t ∧ EdgeTakes s ⟨true, popcnt .w64 a, false⟩ t) ∧
    (popcnt .w64 a).toNat = fieldCount a 0 64 ∧ (popcnt .w64 a).toNat ≤ 64 ∧
    popcnt .w64 0#64 = 0#64 ∧
    popcnt .w64 0xFFFFFFFFFFFFFFFF#64 = 64#64 ∧
    popcnt .w64 0x7FFFFFFFFFFFFFFF#64 = 63#64 ∧
    popcnt .w64 0x8000000000000000#64 = 1#64 ∧
    popcnt .w64 0x0123456789ABCDEF#64 = 32#64

/-- R56: in a serving block (R68) a reserved request is answered (1, 0, 1), whatever the op and operand; the response is on
the ports `L` cycles later if no reset edge or stopped clock comes between; nothing else of the block changes; and the next
request carries its own flag and is served normally, each by the edge of R65 and R66. The trace, input-list and phase
clauses of EdgeTakes are the model's (logs 2, 4 and 8). -/
def Obligations.ReservedOpAnswersZeroAndIllegal : Prop :=
  ∀ (op : BitVec 4) (a : Word) (s : State), op.extractLsb' 2 2 = 0b10#2 ∨ op.extractLsb' 2 2 = 0b11#2 →
    decode ⟨op, a⟩ = .reserved op a ∧
    (s.serving → ∃ t, exec (.reserved op a) s = .next t ∧ EdgeTakes s ⟨true, 0#64, true⟩ t ∧
      ∀ j : Instr, ∃ u, exec j t = .next u ∧ EdgeTakes t (respOf j) u ∧
        (j.wellFormed = true → ((respOf j).ill = true ↔ 8 ≤ (encode j).op.toNat))) ∧
    (s.serving → Inputs.presents s.current (.reserved op a) →
      (∀ k, 1 ≤ k → k < s.latency → Inputs.running (s.inputAt k)) →
      ∃ u, runCycles s.latency s = .next u ∧ State.outputs u = ⟨true, 0#64, true⟩)

/-- R39, R64: the response record of a cycle is the opcode-map function `F` of its own inputs, or empty. -/
def Obligations.ResponseRecordIsOpcodeMap : Prop :=
  ∀ (valid : Bool) (op : BitVec 4) (a : Word),
    resp valid op a =
      if valid then
        if op.extractLsb' 2 2 = 0b00#2 then ⟨true, brev (Width.ofSel (op.extractLsb' 0 2)) a, false⟩
        else if op.extractLsb' 2 2 = 0b01#2 then ⟨true, popcnt (Width.ofSel (op.extractLsb' 0 2)) a, false⟩
        else ⟨true, 0#64, true⟩
      else ⟨false, 0#64, false⟩

/-- R58: whether a request's response is illegal follows from `req_op[3:2]` alone. -/
def Obligations.IllegalFlagFollowsFuncAlone : Prop :=
  ∀ (op : BitVec 4) (a : Word),
    (resp true op a).v = true ∧
    ((resp true op a).ill = true ↔ op.extractLsb' 2 2 = 0b10#2 ∨ op.extractLsb' 2 2 = 0b11#2)

/-- The frame of every request: in a serving block it changes no stage but by moving it one on (R13, R36, R65); in every
block it changes no latency and no phase of a block that has seen its reset, takes nothing else of the inputs than the
current cycle (log 2), and the host's record grows by what `stage[L]` held (log 4). -/
def Obligations.RequestFrame : Prop :=
  ∀ (i : Instr) (s t : State), exec i s = .next t →
    t.latency = s.latency ∧ (s.serving → ∀ k, 1 ≤ k → k < s.latency → t.stage (k + 1) = s.stage k) ∧
    (t.phase = .resetSeen ↔ s.phase = .resetSeen) ∧ t.inputs = s.inputs.tail ∧
    ∃ o, t.trace = s.trace ++ [o] ∧ (1 ≤ s.latency → o = s.stage s.latency)

/-- "No request reads any stage" (R13): what a request puts into the pipeline is the same in every serving block. -/
def Obligations.RequestReadsNoStage : Prop :=
  ∀ (i : Instr) (s s' t t' : State), s.serving → s'.serving → 1 ≤ s.latency → 1 ≤ s'.latency →
    exec i s = .next t → exec i s' = .next t' → t.stage 1 = t'.stage 1

/-! ### The cycle -/

/-- A step runs the request the current cycle presents. -/
def Obligations.StepRunsPresentedRequest : Prop :=
  ∀ (s : State) (i : Instr), Inputs.presents s.current i → step s = exec i s

/-- The step of a serving block at a rising edge with `rst` = 0 (R65; for `L` = 0, R66; the trace, input-list and phase
clauses of EdgeTakes are the model's, logs 2, 4 and 8). -/
def Obligations.RunningEdgeMovesPipeline : Prop :=
  ∀ s : State, s.serving → Inputs.running s.current →
    ∃ t, step s = .next t ∧ EdgeTakes s (resp s.current.reqValid s.current.reqOp s.current.reqA) t

/-- R12: in a cycle with `req_valid` = 0 the values on `req_op` and `req_a` affect neither outputs nor next state. -/
def Obligations.IdleCycleIgnoresOpAndOperand : Prop :=
  ∀ (s : State) (c : Inputs) (op : BitVec 4) (a : Word), c.reqValid = false →
    (s.withCurrent { c with reqOp := op, reqA := a }).outputs = (s.withCurrent c).outputs ∧
    step (s.withCurrent { c with reqOp := op, reqA := a }) = step (s.withCurrent c)

/-- R67: a rising edge with `rst` = 1 clears every stage, whatever the request inputs; with `L` = 0 the outputs are zero
while `rst` = 1. -/
def Obligations.ResetEdgeClearsEveryStage : Prop :=
  ∀ s : State,
    (s.current.clk = true → s.current.rst = true →
      ∃ t, step s = .next t ∧ t.latency = s.latency ∧ ∀ r ∈ t.stages, r = ⟨false, 0#64, false⟩) ∧
    (s.latency = 0 → s.current.rst = true → s.outputs = ⟨false, 0#64, false⟩)

/-- R68: after a reset edge the outputs are (0, 0, 0) until a response arrives: through any `n` cycles without a request,
and for the fewer than `L` cycles after them whatever they present. -/
def Obligations.OutputsZeroAfterResetUntilResponse : Prop :=
  ∀ (s : State) (n j : Nat), s.current.clk = true → s.current.rst = true →
    (∀ k, 1 ≤ k → k ≤ n → (s.inputAt k).reqValid = false) → j < s.latency →
    ∃ t, runCycles (1 + n + j) s = .next t ∧ t.outputs = ⟨false, 0#64, false⟩

/-- R68, R69: from the unspecified power-up contents one reset edge leads to the stages of the reset state; the values
drawn are free, and nothing is said of the outputs before. -/
def Obligations.PowerUpThenResetIsClean : Prop :=
  ∀ (draw L : Nat) (c : Inputs), c.clk = true → c.rst = true →
    ∃ t, step ((State.powerUp draw L).withCurrent c) = .next t ∧ t.stages = (State.resetFor L).stages ∧
      t.phase = (State.resetFor L).phase

/-- R63: a stopped clock freezes the stages, and for `L` ≥ 1 the outputs with them. The model's own form: a cycle without an
edge passes in the input list (log 5), leaves the record of the run as it was (log 4), and is no draw (log 8). -/
def Obligations.StoppedClockFreezesStages : Prop :=
  ∀ s : State, s.current.clk = false →
    ∃ t, step s = .next t ∧ t.stages = s.stages ∧ t.inputs = s.inputs.tail ∧ t.trace = s.trace ∧
      t.phase = s.phase ∧ (1 ≤ s.latency → t.outputs = s.outputs)

/-- R70, R55: the block accepts every cycle: a step never faults and never refuses. That the next state is one input cycle
further is the model's form (log 2; log 5 for a cycle without an edge). -/
def Obligations.EveryStepCompletes : Prop :=
  ∀ s : State, ∃ t, step s = .next t ∧ t.inputs = s.inputs.tail

/-- R16: the latency is fixed for the life of the block, and a step never buffers beyond `L` stages (R70). -/
def Obligations.StepKeepsLatency : Prop :=
  ∀ s t : State, step s = .next t → t.stages.length = s.stages.length

/-- R23: the state after reset, for every build, which serves requests (R68); the reference build has `L` = 1. -/
def Obligations.ResetStateIsEmpty : Prop :=
  (∀ L : Nat, (State.resetFor L).latency = L ∧ ∀ k, 1 ≤ k → k ≤ L → (State.resetFor L).stage k = ⟨false, 0#64, false⟩) ∧
  (∀ L : Nat, 1 ≤ L → (State.resetFor L).outputs = ⟨false, 0#64, false⟩) ∧
  State.reset.latency = 1 ∧ ∀ L : Nat, (State.resetFor L).serving

/-- R14: the invariant: established by reset, kept with it by every step of a block whose reset has come (before it R68
leaves the stages unspecified), and it makes the outputs zero when `rsp_valid` = 0. -/
def Obligations.EmptyStagesStayZero : Prop :=
  (∀ L : Nat, (State.resetFor L).serving ∧ (State.resetFor L).clean) ∧
  (∀ s t : State, s.current.clk = true → s.current.rst = true → step s = .next t → t.serving ∧ t.clean) ∧
  (∀ s t : State, s.serving → s.clean → step s = .next t → t.serving ∧ t.clean) ∧
  ∀ s : State, s.clean → s.outputs.v = false → s.outputs.y = 0#64 ∧ s.outputs.ill = false

/-- R14 at the reset state. -/
def Obligations.ResetStateIsClean : Prop := State.reset.serving ∧ State.reset.clean

/-- R13, R66: the output ports: `stage[L]`, or for `L` = 0 a combinational function of the current inputs. -/
def Obligations.OutputsAreLastStageOrCombinational : Prop :=
  ∀ s : State,
    (1 ≤ s.latency → s.outputs = s.stage s.latency) ∧
    (s.latency = 0 → s.outputs =
      if s.current.rst then ⟨false, 0#64, false⟩ else resp s.current.reqValid s.current.reqOp s.current.reqA)

/-- The model's own record of a run (log 4): every rising edge appends the ports' values of the cycle it ends, and nothing
else touches it. -/
def Obligations.TraceRecordsOutputsOfEachCycle : Prop :=
  ∀ s t : State, step s = .next t →
    t.trace = if s.current.clk then s.trace ++ [s.outputs] else s.trace

/-! ### Runs -/

/-- R65, R73: a request is on the response ports exactly `L` cycles after the cycle that presented it, the same `L` for
every request of a serving block (R68; no reset edge and no stopped clock in between; a reset is R67's). -/
def Obligations.RequestAnsweredAfterLatency : Prop :=
  ∀ (s : State) (i : Instr), s.serving → Inputs.presents s.current i →
    (∀ k, 1 ≤ k → k < s.latency → Inputs.running (s.inputAt k)) →
    ∃ t, runCycles s.latency s = .next t ∧ t.outputs = respOf i

/-- The pipeline of a serving block is a delay line of `L` cycles: over any row `cs` of running cycles, the host sees first
what was in the stages, last stage first, and then the record of each cycle in order; what is still in flight stands in the
stages (R28, R65, R66). Stated through the model's own input list (log 2) and record of a run, the trace (log 4). -/
def Obligations.PipelineIsDelayLine : Prop :=
  ∀ (s : State) (cs rest : List Inputs), s.serving → s.inputs = cs ++ rest → (∀ c ∈ cs, Inputs.running c) →
    ∃ t, runCycles cs.length s = .next t ∧ t.inputs = rest ∧
      t.trace = s.trace ++
        (s.stages.reverse ++ cs.map fun c => resp c.reqValid c.reqOp c.reqA).take cs.length ∧
      t.stages.reverse = (s.stages.reverse ++ cs.map fun c => resp c.reqValid c.reqOp c.reqA).drop cs.length

/-- R28, with the resets of R67 and R68: in a run of `N` clocked cycles from any state, the ports `L` cycles after cycle `n`
show the record of cycle `n`'s own inputs, unless a reset edge came at cycle `n` or before the response was on the ports:
then they show nothing. Before the first reset edge since power-up nothing is said of a request (R68). Stated through the
model's own record of a run, the trace (log 4), which in a cycle that is itself a reset cycle holds `stage[L]` (log 17). -/
def Obligations.EachRequestAnsweredInOrderUnlessReset : Prop :=
  ∀ (s : State) (N n : Nat), (∀ k, k < N → (s.inputAt k).clk = true) → n + s.latency < N →
    ∃ t, runCycles N s = .next t ∧ t.trace.length = s.trace.length + N ∧
      (s.serving ∨ (∃ k, k < n ∧ (s.inputAt k).rst = true) →
        (∀ k, n ≤ k → k < n + max s.latency 1 → (s.inputAt k).rst = false) →
        t.trace[s.trace.length + (n + s.latency)]? =
          some (resp (s.inputAt n).reqValid (s.inputAt n).reqOp (s.inputAt n).reqA)) ∧
      ((∃ k, n ≤ k ∧ k < n + max s.latency 1 ∧ (s.inputAt k).rst = true) →
        t.trace[s.trace.length + (n + s.latency)]? = some ⟨false, 0#64, false⟩)

/-- R74: a run from the reset state, of running cycles `cs` and then `L` cycles without a request, is over, and its
observation is the responses of its requests, one each, in order. The observation is the model's trace (log 4). -/
def Obligations.CompleteRunObservesEveryResponse : Prop :=
  ∀ (L : Nat) (cs tail : List Inputs), (∀ c ∈ cs, Inputs.running c) →
    (∀ c ∈ tail, Inputs.running c ∧ c.reqValid = false) → tail.length = L →
    ∃ t, runCycles (cs.length + L) { State.resetFor L with inputs := cs ++ tail } = .next t ∧
      responses t.trace = owed cs ∧ t.drained

/-- R28, R64: a response depends on its own request only: two serving blocks of one latency that present the same request,
with any stages and any other inputs, show the same response `L` cycles later. -/
def Obligations.ResponseIndependentOfOtherRequests : Prop :=
  ∀ (s s' : State) (i : Instr), s.serving → s'.serving → s.latency = s'.latency →
    Inputs.presents s.current i → Inputs.presents s'.current i →
    (∀ k, 1 ≤ k → k < s.latency → Inputs.running (s.inputAt k)) →
    (∀ k, 1 ≤ k → k < s.latency → Inputs.running (s'.inputAt k)) →
    ∃ t t', runCycles s.latency s = .next t ∧ runCycles s.latency s' = .next t' ∧
      t.outputs = t'.outputs

/-- R71: a dependent request whose operand is the `rsp_y` of the cycle that shows the first result, presented in that cycle
(for `L` = 0: captured there and presented in the next), is answered from that result, in a serving block. -/
def Obligations.DependentRequestUsesResult : Prop :=
  ∀ (s : State) (i : Instr) (op : BitVec 4), s.serving → Inputs.presents s.current i →
    (∀ k, k < 2 * s.latency → Inputs.running (s.inputAt k)) →
    (1 ≤ s.latency →
      (s.inputAt s.latency).reqValid = true → (s.inputAt s.latency).reqOp = op →
      (∀ u, runCycles s.latency s = .next u → (s.inputAt s.latency).reqA = u.outputs.y) →
      ∃ t, runCycles (2 * s.latency) s = .next t ∧ t.outputs = resp true op (respOf i).y) ∧
    (s.latency = 0 →
      (s.inputAt 1).rst = false → (s.inputAt 1).reqValid = true → (s.inputAt 1).reqOp = op →
      (s.inputAt 1).reqA = s.outputs.y →
      ∃ t, runCycles 1 s = .next t ∧ t.outputs = resp true op (respOf i).y)

/-- R56, seen by a host: after a run that only presented operations of func 00 or 01 to a drained serving block,
the host has seen no reserved-op response it had not seen before (what it has seen is the model's trace, log 4). -/
def Obligations.ProgramsOfLegalOpsAreSafe : Prop :=
  ∀ (s t : State) (n : Nat), s.serving → s.hostSafe → s.drained → s.clean →
    (∀ k, k < n → (s.inputAt k).reqValid = true → (s.inputAt k).reqOp.toNat < 8) →
    runCycles n s = .next t → t.hostSafe

/-! ### Before the first reset edge, and the reset cycle -/

/-- R68: only a reset edge ends the wait for the first reset: a block has seen its reset after a step exactly if it had seen
it before, or the cycle ended in a rising edge with `rst` = 1 (the phase of State is the model's form of this, log 8). -/
def Obligations.OnlyResetEdgeStartsService : Prop :=
  ∀ s t : State, step s = .next t →
    (t.phase = .resetSeen ↔ s.phase = .resetSeen ∨ (s.current.clk = true ∧ s.current.rst = true))

/-- R68: before the first reset edge a request of a block with stages completes, and the block still waits for its reset: its
latency is unchanged, the current cycle has passed (log 2), and the host's record holds what `stage[L]` held, which is
unspecified (logs 4 and 8). Nothing is said of the next stages, whose contents R68 leaves unspecified too. -/
def Obligations.RequestBeforeFirstResetCompletesAndBlockWaits : Prop :=
  ∀ (i : Instr) (s : State), ¬ s.serving →
    ∃ t, exec i s = .next t ∧ ¬ t.serving ∧ t.latency = s.latency ∧ t.inputs = s.inputs.tail ∧
      t.trace = s.trace ++ [s.stage s.latency]

/-- R68: from power-up with any contents, the first reset edge and then `L` running cycles later, the block's answer to the
first request after the reset is on the ports, whatever was presented before it. -/
def Obligations.FirstRequestAfterResetIsServed : Prop :=
  ∀ (draw L n : Nat) (ins : List Inputs) (i : Instr) (s : State), s = { State.powerUp draw L with inputs := ins } →
    (s.inputAt n).clk = true → (s.inputAt n).rst = true → Inputs.presents (s.inputAt (n + 1)) i →
    (∀ k, 1 ≤ k → k < L → Inputs.running (s.inputAt (n + 1 + k))) →
    ∃ t, runCycles (n + 1 + L) s = .next t ∧ t.outputs = respOf i

/-- The frame of a reset edge, in the model's form: the current cycle has passed (log 2), and the host's record holds what the
ports showed in the cycle, `stage[L]` until the edge (logs 4 and 17) or zero for `L` = 0 (R66). -/
def Obligations.ResetCycleShowsLastStage : Prop :=
  ∀ s t : State, s.current.clk = true → s.current.rst = true → step s = .next t →
    t.inputs = s.inputs.tail ∧
    t.trace = s.trace ++ [if s.latency = 0 then ⟨false, 0#64, false⟩ else s.stage s.latency]
end

