-- ==== Sys2Proof/Laws/Bits.lean ====
section
/-! SUPPORT. What the bit kernels' operations do, bit by bit. -/

namespace Sys2Proof.Machine

theorem getLsbD_bitsBelow (n : Nat) (f : Nat → Bool) (k i : Nat) (hk : k ≤ n) :
    (bitsBelow n f k).getLsbD i = (decide (i < k) && f i) := by
  induction k with
  | zero => simp [bitsBelow]
  | succ k ih =>
    have hn : k < n := by omega
    rw [bitsBelow, BitVec.getLsbD_or, ih (by omega), BitVec.getLsbD_shiftLeft, BitVec.getLsbD_setWidth,
      BitVec.getLsbD_ofBool]
    rcases Nat.lt_trichotomy i k with h | h | h
    · simp [h, Nat.lt_succ_of_lt h]
    · subst h
      simp [hn]
      omega
    · have h1 : ¬ i < k := by omega
      have h2 : ¬ i < k + 1 := by omega
      have h3 : i - k ≠ 0 := by omega
      simp [h1, h2, h3]

/-- Bit i of an assembled value is `f i`. -/
@[simp] theorem getLsbD_bitsOf (n : Nat) (f : Nat → Bool) (i : Nat) :
    (bitsOf n f).getLsbD i = (decide (i < n) && f i) :=
  getLsbD_bitsBelow n f n i (Nat.le_refl n)

/-- Bit i of the W-bit operand is bit i of `a` below W. -/
@[simp] theorem getLsbD_operand (W : Width) (a : Word) (i : Nat) :
    (operand W a).getLsbD i = (decide (i < W.bits) && a.getLsbD i) := BitVec.getLsbD_setWidth ..

/-- A result is zero-extended to the bus. -/
@[simp] theorem getLsbD_result {n : Nat} (r : BitVec n) (i : Nat) :
    (result r).getLsbD i = (decide (i < 64) && r.getLsbD i) := BitVec.getLsbD_setWidth ..

/-- Every width fits the bus. -/
theorem Width.bits_le (W : Width) : W.bits ≤ 64 := by cases W <;> decide

/-- Bit i of a reversed word (R40). -/
@[simp] theorem getLsbD_reverseWord {n : Nat} (v : BitVec n) (i : Nat) :
    (reverseWord v).getLsbD i = (decide (i < n) && v.getLsbD (n - 1 - i)) := getLsbD_bitsOf ..

/-- The count below k, as a number: no addition of R47's loop wraps on a word of at most 64 bits. -/
theorem toNat_countBelow {n : Nat} (v : BitVec n) (k : Nat) (hk : k ≤ 64) :
    (countBelow v k).toNat = (List.range k).countP fun i => v.getLsbD i := by
  induction k with
  | zero => rfl
  | succ k ih =>
    have hle : ((List.range k).countP fun i => v.getLsbD i) ≤ k := by
      simpa using List.countP_le_length (l := List.range k) (p := fun i => v.getLsbD i)
    rw [countBelow, BitVec.toNat_add, ih (by omega), List.range_succ, List.countP_append]
    cases h : v.getLsbD k <;> simp [h] <;> omega

/-- Bit i of `BREV_W(a)` on the bus. -/
theorem getLsbD_brev (W : Width) (a : Word) (i : Nat) :
    (brev W a).getLsbD i = (decide (i < W.bits) && a.getLsbD (W.bits - 1 - i)) := by
  have hW := Width.bits_le W
  rw [brev, getLsbD_result, getLsbD_reverseWord, getLsbD_operand]
  by_cases h : i < W.bits
  · simp [h, show i < 64 by omega, show W.bits - 1 - i < W.bits by omega]
  · simp [h]

/-- `POPCNT_W(a)` as a number. -/
theorem toNat_popcnt (W : Width) (a : Word) :
    (popcnt W a).toNat = (List.range W.bits).countP fun i => a.getLsbD i := by
  have hW := Width.bits_le W
  have h := toNat_countBelow (operand W a) W.bits hW
  have e : ((List.range W.bits).countP fun i => (operand W a).getLsbD i) =
      (List.range W.bits).countP fun i => a.getLsbD i := by
    apply List.countP_congr
    intro i hi
    rw [getLsbD_operand]
    simp [List.mem_range.1 hi]
  have hle : ((List.range W.bits).countP fun i => a.getLsbD i) ≤ W.bits := by
    simpa using List.countP_le_length (l := List.range W.bits) (p := fun i => a.getLsbD i)
  rw [e] at h
  rw [popcnt, result, BitVec.toNat_setWidth, countWord, h, Nat.mod_eq_of_lt (by omega)]

end Sys2Proof.Machine
end

