-- ==== Sys2Proof/Laws/Decode.lean ====
section
/-! SUPPORT. The packed request word (log 9) keeps both fields. -/

namespace Sys2Proof

/-- Packing a request and reading it back gives the request. -/
@[simp] theorem Request.ofWord_toWord (r : Request) : Request.ofWord r.toWord = r := by
  obtain ⟨op, a⟩ := r
  simp only [Request.ofWord, Request.toWord, Request.mk.injEq]
  constructor <;> apply BitVec.eq_of_getLsbD_eq <;> intro i hi
  · simp [hi]
    omega
  · have h1 : 4 + i < 68 := by omega
    simp [hi, h1]

/-- Reading a word and packing it again gives the word: it has no bit outside the two fields. -/
@[simp] theorem Request.toWord_ofWord (w : BitVec 68) : (Request.ofWord w).toWord = w := by
  simp only [Request.ofWord, Request.toWord]
  apply BitVec.eq_of_getLsbD_eq
  intro i hi
  by_cases h : i < 4
  · simp [h]
    omega
  · have h1 : i - 4 < 64 := by omega
    simp [h, hi, h1, show 4 + (i - 4) = i by omega]

end Sys2Proof
end

