-- ==== Sys2Proof/Laws/MaskTable.lean ====
section
/-! SUPPORT. The mask table read bit by bit. -/

namespace Sys2Proof.Machine

/-- A fact about every entry of the table is checked entry by entry. -/
theorem forall_entry {P : Width → Nat → Prop} (h : ∀ W ∈ Width.all, ∀ g ∈ granularities W, P W g) (W : Width) (g : Nat)
    (hg : g ∈ granularities W) : P W g :=
  h W (by cases W <;> decide) g hg

/-- Bit i of `LOW(W,g)` on the bus: i is below W and in an even group (R19). -/
theorem getLsbD_lowMask (W : Width) (g : Nat) (hg : g ∈ granularities W) :
    ∀ i < 64, (lowMask W g).getLsbD i = (decide (i < W.bits) && decide (i / g % 2 = 0)) :=
  forall_entry
    (P := fun W g => ∀ i < 64, (lowMask W g).getLsbD i = (decide (i < W.bits) && decide (i / g % 2 = 0)))
    (by decide +kernel) W g hg

/-- Bit i of `HIGH(W,g)` on the bus: i is below W and in an odd group (R20). -/
theorem getLsbD_highMask (W : Width) (g : Nat) (hg : g ∈ granularities W) :
    ∀ i < 64, (highMask W g).getLsbD i = (decide (i < W.bits) && decide (i / g % 2 = 1)) :=
  forall_entry
    (P := fun W g => ∀ i < 64, (highMask W g).getLsbD i = (decide (i < W.bits) && decide (i / g % 2 = 1)))
    (by decide +kernel) W g hg

end Sys2Proof.Machine
end

