-- ==== Sys2Proof/Laws/State.lean ====
section
/-! SUPPORT. The fields of State after each operation. -/

namespace Sys2Proof.Machine

@[simp] theorem State.clockEdge_stages (r : Stage) (s : State) : (s.clockEdge r).stages = s.stagesAfterEdge r := rfl
@[simp] theorem State.clockEdge_inputs (r : Stage) (s : State) : (s.clockEdge r).inputs = s.inputs.tail := rfl
@[simp] theorem State.clockEdge_trace (r : Stage) (s : State) :
    (s.clockEdge r).trace = s.trace ++ [s.ports r] := rfl
@[simp] theorem State.clockEdge_phase (r : Stage) (s : State) : (s.clockEdge r).phase = s.phase.afterEdge := rfl

@[simp] theorem State.resetEdge_stages (s : State) : s.resetEdge.stages = s.stages.map fun _ => Stage.empty := rfl
@[simp] theorem State.resetEdge_inputs (s : State) : s.resetEdge.inputs = s.inputs.tail := rfl
@[simp] theorem State.resetEdge_trace (s : State) : s.resetEdge.trace = s.trace ++ [s.ports Stage.empty] := rfl
@[simp] theorem State.resetEdge_phase (s : State) : s.resetEdge.phase = .resetSeen := rfl

@[simp] theorem State.freeze_stages (s : State) : s.freeze.stages = s.stages := rfl
@[simp] theorem State.freeze_inputs (s : State) : s.freeze.inputs = s.inputs.tail := rfl
@[simp] theorem State.freeze_trace (s : State) : s.freeze.trace = s.trace := rfl
@[simp] theorem State.freeze_phase (s : State) : s.freeze.phase = s.phase := rfl

@[simp] theorem State.withCurrent_stages (s : State) (c : Inputs) : (s.withCurrent c).stages = s.stages := rfl
@[simp] theorem State.withCurrent_inputs (s : State) (c : Inputs) :
    (s.withCurrent c).inputs = c :: s.inputs.tail := rfl
@[simp] theorem State.withCurrent_trace (s : State) (c : Inputs) : (s.withCurrent c).trace = s.trace := rfl
@[simp] theorem State.withCurrent_phase (s : State) (c : Inputs) : (s.withCurrent c).phase = s.phase := rfl
@[simp] theorem State.withCurrent_current (s : State) (c : Inputs) : (s.withCurrent c).current = c := rfl

@[simp] theorem State.resetFor_stages (L : Nat) : (State.resetFor L).stages = List.replicate L Stage.empty := rfl
@[simp] theorem State.resetFor_inputs (L : Nat) : (State.resetFor L).inputs = [] := rfl
@[simp] theorem State.resetFor_trace (L : Nat) : (State.resetFor L).trace = [] := rfl

@[simp] theorem State.resetFor_phase (L : Nat) : (State.resetFor L).phase = .resetSeen := rfl

@[simp] theorem State.powerUp_stages (draw L : Nat) : (State.powerUp draw L).stages = drawnStages draw L := rfl
@[simp] theorem State.powerUp_inputs (draw L : Nat) : (State.powerUp draw L).inputs = [] := rfl
@[simp] theorem State.powerUp_trace (draw L : Nat) : (State.powerUp draw L).trace = [] := rfl
@[simp] theorem State.powerUp_phase (draw L : Nat) : (State.powerUp draw L).phase = .unreset draw := rfl

@[simp] theorem length_drawnStages (draw L : Nat) : (drawnStages draw L).length = L := by simp [drawnStages]

@[simp] theorem Phase.afterEdge_unreset (draw : Nat) : (Phase.unreset draw).afterEdge = .unreset (draw + 1) := rfl
@[simp] theorem Phase.afterEdge_resetSeen : Phase.resetSeen.afterEdge = .resetSeen := rfl

/-- An edge with `rst` = 0 neither ends nor begins the wait for the first reset edge (R68). -/
@[simp] theorem Phase.afterEdge_eq_resetSeen (p : Phase) : p.afterEdge = .resetSeen ↔ p = .resetSeen := by
  cases p <;> simp

/-- Whatever the phase, an edge leaves as many stages as there were. -/
@[simp] theorem State.length_stagesAfterEdge (r : Stage) (s : State) :
    (s.stagesAfterEdge r).length = s.stages.length := by
  unfold State.stagesAfterEdge
  split <;> simp [State.latency]

/-- In a serving block an edge moves the pipeline one on (R65). -/
theorem State.stagesAfterEdge_of_serving (r : Stage) {s : State} (h : s.serving) :
    s.stagesAfterEdge r = (r :: s.stages).dropLast := by
  obtain ⟨st, i, tr, p⟩ := s
  rcases h with rfl | h
  · rfl
  · obtain rfl : st = [] := List.eq_nil_of_length_eq_zero h
    cases p <;> rfl

/-- Before the first reset edge an edge draws the stages anew (R68). -/
theorem State.stagesAfterEdge_of_unreset (r : Stage) {s : State} {draw : Nat} (h : s.phase = .unreset draw) :
    s.stagesAfterEdge r = drawnStages (draw + 1) s.latency := by
  simp only [State.stagesAfterEdge, h]

@[simp] theorem State.resetFor_latency (L : Nat) : (State.resetFor L).latency = L := List.length_replicate
@[simp] theorem State.powerUp_latency (draw L : Nat) : (State.powerUp draw L).latency = L := by
  simp [State.latency]

@[simp] theorem State.clockEdge_latency (r : Stage) (s : State) : (s.clockEdge r).latency = s.latency := by
  simp [State.latency]
@[simp] theorem State.resetEdge_latency (s : State) : s.resetEdge.latency = s.latency := by simp [State.latency]
@[simp] theorem State.freeze_latency (s : State) : s.freeze.latency = s.latency := rfl

/-- A serving block still serves after an edge. -/
theorem State.clockEdge_serving (r : Stage) {s : State} (h : s.serving) : (s.clockEdge r).serving := by
  simpa [State.serving] using h
/-- Every block serves after a reset edge. -/
theorem State.resetEdge_serving (s : State) : s.resetEdge.serving := .inl rfl

@[simp] theorem State.inputAt_zero (s : State) : s.inputAt 0 = s.current := rfl

/-- Once a cycle has passed, every later cycle is one nearer. -/
theorem State.inputAt_of_inputs_tail {s t : State} (h : t.inputs = s.inputs.tail) (n : Nat) :
    t.inputAt n = s.inputAt (n + 1) := by
  simp [State.inputAt, h, List.getElem?_tail]

end Sys2Proof.Machine
end

