-- ==== Sys2Proof/Laws/Ops.lean ====
section
/-! SUPPORT. One lemma per shared operation: everything it can do. -/

namespace Sys2Proof.Machine

/-- `respond` answers the state after a clock edge, and nothing else. -/
@[simp] theorem respond_eq (r : Stage) (s : State) : respond r s = .next (s.clockEdge r) := rfl

/-- Every request is one clock edge with its own response record. -/
theorem exec_eq (i : Instr) (s : State) : exec i s = .next (s.clockEdge (respOf i)) := by
  cases i <;> rfl

/-- The inversion of exec. -/
theorem exec_next {i : Instr} {s t : State} (h : exec i s = .next t) : t = s.clockEdge (respOf i) := by
  rw [exec_eq] at h
  injection h with h
  exact h.symm

/-- The ports in a cycle with record `r`: `r` itself when there is no stage, the last stage otherwise. -/
theorem State.ports_eq (s : State) (r : Stage) :
    s.ports r = if s.latency = 0 then r else s.stage s.latency := by
  obtain ⟨st, i, tr, p⟩ := s
  cases st with
  | nil => rfl
  | cons x xs =>
    simp only [State.ports, State.latency, State.stage, List.length_cons, Nat.add_one_ne_zero, if_false,
      Nat.add_one_sub_one]
    rw [List.getLastD_eq_getLast?, List.getLast?_eq_getElem?]
    simp

/-- In a serving block an edge puts its record into `stage[1]`. -/
theorem State.clockEdge_stage_one (r : Stage) {s : State} (hs : s.serving) (h : 1 ≤ s.latency) :
    (s.clockEdge r).stage 1 = r := by
  simp only [State.stage, State.clockEdge_stages, State.stagesAfterEdge_of_serving r hs]
  simp only [State.latency] at h
  cases hst : s.stages with
  | nil => simp [hst] at h
  | cons x xs => simp

/-- In a serving block an edge moves every stage one on. -/
theorem State.clockEdge_stage_succ (r : Stage) {s : State} (hs : s.serving) (k : Nat) (h1 : 1 ≤ k)
    (hk : k < s.latency) : (s.clockEdge r).stage (k + 1) = s.stage k := by
  obtain ⟨k, rfl⟩ : ∃ j, k = j + 1 := ⟨k - 1, by omega⟩
  simp only [State.stage, State.clockEdge_stages, State.stagesAfterEdge_of_serving r hs]
  simp only [State.latency] at hk
  simp [hk, List.getElem?_eq_getElem (show k < s.stages.length by omega)]

/-- In a serving block a clock edge does what R65 and R66 say. -/
theorem edgeTakes_clockEdge {s : State} (hs : s.serving) (r : Stage) : EdgeTakes s r (s.clockEdge r) where
  latency_eq := State.clockEdge_latency r s
  stage_one := State.clockEdge_stage_one r hs
  stage_succ := State.clockEdge_stage_succ r hs
  inputs_eq := rfl
  trace_eq := by rw [State.clockEdge_trace, State.ports_eq]
  phase_eq := rfl

/-- A reset edge leaves every stage (0, 0, 0). -/
theorem State.resetEdge_stage (s : State) (k : Nat) : s.resetEdge.stage k = Stage.empty := by
  simp only [State.stage, State.resetEdge_stages, List.getElem?_map]
  cases s.stages[k - 1]? <;> rfl

/-- The four things a cycle can be, and the state each leaves. -/
theorem step_cases (s : State) :
    (s.current.clk = false ∧ step s = .next s.freeze) ∨
    (s.current.clk = true ∧ s.current.rst = true ∧ step s = .next s.resetEdge) ∨
    (Inputs.running s.current ∧
      step s = .next (s.clockEdge (resp s.current.reqValid s.current.reqOp s.current.reqA))) := by
  unfold step decodeInputs
  cases hc : s.current.clk
  · exact .inl ⟨rfl, by simp⟩
  · cases hr : s.current.rst
    · refine .inr (.inr ⟨⟨hc, hr⟩, ?_⟩)
      cases hv : s.current.reqValid
      · simp [resp]
      · simp [resp, exec_eq]
    · exact .inr (.inl ⟨rfl, rfl, by simp⟩)

/-- A block that serves requests goes on serving them. -/
theorem step_keeps_serving {s t : State} (hs : s.serving) (h : step s = .next t) : t.serving := by
  rcases step_cases s with ⟨-, e⟩ | ⟨-, -, e⟩ | ⟨-, e⟩ <;> rw [e] at h <;> injection h with h <;> subst h
  · exact hs
  · exact s.resetEdge_serving
  · exact State.clockEdge_serving _ hs

/-- What a running cycle does. -/
theorem step_running {s : State} (h : Inputs.running s.current) :
    step s = .next (s.clockEdge (resp s.current.reqValid s.current.reqOp s.current.reqA)) := by
  obtain ⟨hc, hr⟩ := h
  rcases step_cases s with ⟨h, -⟩ | ⟨-, h, -⟩ | ⟨-, h⟩
  · simp [hc] at h
  · simp [hr] at h
  · exact h

/-- What a reset cycle does. -/
theorem step_reset {s : State} (hc : s.current.clk = true) (hr : s.current.rst = true) :
    step s = .next s.resetEdge := by
  rcases step_cases s with ⟨h, -⟩ | ⟨-, -, h⟩ | ⟨⟨-, h⟩, -⟩
  · simp [hc] at h
  · exact h
  · simp [hr] at h

/-- What a cycle without an edge does. -/
theorem step_stopped {s : State} (hc : s.current.clk = false) : step s = .next s.freeze := by
  rcases step_cases s with ⟨-, h⟩ | ⟨h, -⟩ | ⟨⟨h, -⟩, -⟩
  · exact h
  · simp [hc] at h
  · simp [hc] at h

@[simp] theorem runCycles_zero (s : State) : runCycles 0 s = .next s := rfl

/-- One more cycle of a run, taken first. -/
theorem runCycles_succ (n : Nat) {s t : State} (h : step s = .next t) : runCycles (n + 1) s = runCycles n t := by
  have h' : Sys2Proof.core.step s = .next t := h
  simp only [runCycles, Host.Core.run, h']
  rfl

/-- Every cycle answers a next state. -/
theorem step_total (s : State) : ∃ t, step s = .next t ∧ t.inputs = s.inputs.tail ∧ t.latency = s.latency := by
  rcases step_cases s with ⟨-, h⟩ | ⟨-, -, h⟩ | ⟨-, h⟩ <;> exact ⟨_, h, rfl, by simp⟩

/-- A run of `n` cycles answers a next state, `n` cycles further in the inputs. -/
theorem runCycles_total (n : Nat) (s : State) :
    ∃ t, runCycles n s = .next t ∧ t.inputs = s.inputs.drop n ∧ t.latency = s.latency := by
  induction n generalizing s with
  | zero => exact ⟨s, rfl, rfl, rfl⟩
  | succ n ih =>
    obtain ⟨u, hu, hi, hl⟩ := step_total s
    obtain ⟨t, ht, hti, htl⟩ := ih u
    exact ⟨t, by rw [runCycles_succ n hu, ht], by rw [hti, hi, List.drop_tail], by rw [htl, hl]⟩

/-- A run in two parts. -/
theorem runCycles_add (m n : Nat) {s t : State} (h : runCycles m s = .next t) :
    runCycles (m + n) s = runCycles n t := by
  induction m generalizing s with
  | zero =>
    rw [runCycles_zero] at h
    injection h with h
    rw [h, Nat.zero_add]
  | succ m ih =>
    obtain ⟨u, hu, -⟩ := step_total s
    rw [runCycles_succ m hu] at h
    rw [Nat.add_right_comm, runCycles_succ _ hu, ih h]

end Sys2Proof.Machine
end

