-- ==== Sys2Proof/Laws/PerInstr.lean ====
section
/-! SUPPORT. The per-instruction family OpcodeRow: a well-formed request is encoded in its own row of spec/opcode_table.json. -/

namespace Sys2Proof.Laws.OpcodeRow

/-- Some row of the table has the instruction's name and matches the op the encoder gives it. -/
def Statement (i : Instr) : Prop :=
  i.wellFormed = true → ∃ row ∈ opcodeTable, row.mnemonic = i.mnemonic ∧ row.accepts (encode i).op = true

theorem brev8 (a : Word) : Statement (.brev8 a) := fun _ => ⟨⟨"BREV.8", 0x0#4, 0xF#4⟩, by decide, rfl, by simp [Sys2Proof.OpcodeRow.accepts, encode]⟩
theorem brev16 (a : Word) : Statement (.brev16 a) := fun _ => ⟨⟨"BREV.16", 0x1#4, 0xF#4⟩, by decide, rfl, by simp [Sys2Proof.OpcodeRow.accepts, encode]⟩
theorem brev32 (a : Word) : Statement (.brev32 a) := fun _ => ⟨⟨"BREV.32", 0x2#4, 0xF#4⟩, by decide, rfl, by simp [Sys2Proof.OpcodeRow.accepts, encode]⟩
theorem brev64 (a : Word) : Statement (.brev64 a) := fun _ => ⟨⟨"BREV.64", 0x3#4, 0xF#4⟩, by decide, rfl, by simp [Sys2Proof.OpcodeRow.accepts, encode]⟩
theorem popcnt8 (a : Word) : Statement (.popcnt8 a) := fun _ => ⟨⟨"POPCNT.8", 0x4#4, 0xF#4⟩, by decide, rfl, by simp [Sys2Proof.OpcodeRow.accepts, encode]⟩
theorem popcnt16 (a : Word) : Statement (.popcnt16 a) := fun _ => ⟨⟨"POPCNT.16", 0x5#4, 0xF#4⟩, by decide, rfl, by simp [Sys2Proof.OpcodeRow.accepts, encode]⟩
theorem popcnt32 (a : Word) : Statement (.popcnt32 a) := fun _ => ⟨⟨"POPCNT.32", 0x6#4, 0xF#4⟩, by decide, rfl, by simp [Sys2Proof.OpcodeRow.accepts, encode]⟩
theorem popcnt64 (a : Word) : Statement (.popcnt64 a) := fun _ => ⟨⟨"POPCNT.64", 0x7#4, 0xF#4⟩, by decide, rfl, by simp [Sys2Proof.OpcodeRow.accepts, encode]⟩

/-- Every op from 8 up has bit 3 set, which is all the RESERVED row's mask looks at. -/
theorem reserved_row_accepts :
    ∀ op : BitVec 4, 8 ≤ op.toNat → (⟨"RESERVED", 0x8#4, 0x8#4⟩ : Sys2Proof.OpcodeRow).accepts op = true := by decide

theorem reserved (op : BitVec 4) (a : Word) : Statement (.reserved op a) := fun h =>
  ⟨⟨"RESERVED", 0x8#4, 0x8#4⟩, by decide, rfl, reserved_row_accepts op (of_decide_eq_true h)⟩

end Sys2Proof.Laws.OpcodeRow
end

