-- ==== Sys2Proof/Tests/Slice0.lean ====
section
/-! SUPPORT. Tests. Expected values are the spec's own: 95_test_vectors.md (S, BV, PV, RV, TV and the traces of §2.3, §3.3),
the examples of R42 to R56, the table of R38. The `wit_` theorems show that the hypotheses of the statements can be met. -/

namespace Sys2Proof.Machine

/-! ### WellFormed: the one check refuses ops below 8 -/

theorem test_reserved_op_7_is_ill_formed : (Instr.reserved 7#4 0#64).wellFormed = false := by decide
theorem test_reserved_op_0_is_ill_formed : (Instr.reserved 0#4 0x80#64).wellFormed = false := by decide
theorem test_reserved_op_8_is_well_formed : (Instr.reserved 8#4 0#64).wellFormed = true := by decide

/-! ### Decoding: op bits written out from R39, one per constructor -/

theorem test_decode_brev8 : decode ⟨0b0000#4, 0x80#64⟩ = .brev8 0x80#64 := by decide
theorem test_decode_brev16 : decode ⟨0b0001#4, 0x1234#64⟩ = .brev16 0x1234#64 := by decide
theorem test_decode_brev32 : decode ⟨0b0010#4, 1#64⟩ = .brev32 1#64 := by decide
theorem test_decode_brev64 : decode ⟨0b0011#4, 1#64⟩ = .brev64 1#64 := by decide
theorem test_decode_popcnt8 : decode ⟨0b0100#4, 0xD2#64⟩ = .popcnt8 0xD2#64 := by decide
theorem test_decode_popcnt16 : decode ⟨0b0101#4, 1#64⟩ = .popcnt16 1#64 := by decide
theorem test_decode_popcnt32 : decode ⟨0b0110#4, 1#64⟩ = .popcnt32 1#64 := by decide
theorem test_decode_popcnt64 : decode ⟨0b0111#4, 1#64⟩ = .popcnt64 1#64 := by decide
theorem test_decode_reserved : decode ⟨0b1001#4, 0xFFFF#64⟩ = .reserved 0b1001#4 0xFFFF#64 := by decide
theorem test_table_word_popcnt16 : decodeTableWord 8 0x5 = some (.popcnt16 0#64) := by decide
theorem test_table_word_operand_bits : decodeTableWord 68 (0xD2 * 16 + 0x4) = some (.popcnt8 0xD2#64) := by decide
theorem test_table_word_too_long : decodeTableWord 72 (2 ^ 68) = none := by decide
theorem test_idle_is_no_request : decodeInputs ⟨true, false, false, 3#4, 1#64⟩ = .error .noValid := by decide
theorem test_reset_takes_precedence : decodeInputs ⟨true, true, true, 3#4, 1#64⟩ = .error .inReset := by decide
theorem test_stopped_clock_samples_nothing : decodeInputs ⟨false, true, true, 3#4, 1#64⟩ = .error .clockStopped := by decide

/-! ### Assembler lines (R38, and lines of 95_test_vectors.md §6) -/

theorem test_line_brev : parseLine "brev.64 0x0123456789ABCDEF".toList = some (.request (.brev64 0x0123456789ABCDEF#64)) := by
  decide
theorem test_line_case_and_binary : parseLine "POPCNT.8 0b11010010".toList = some (.request (.popcnt8 0xD2#64)) := by decide
theorem test_line_rsv : parseLine "rsv 9 0x000000000000FFFF".toList = some (.request (.reserved 9#4 0xFFFF#64)) := by decide
theorem test_line_rsv_7_is_no_line : parseLine "rsv 7 0x0".toList = none := by decide
theorem test_line_65_bits_is_no_line : parseLine "brev.64 0x10000000000000000".toList = none := by decide
theorem test_line_idle : parseLine "idle".toList = some .idle := by decide
theorem test_line_reset : parseLine "reset".toList = some .reset := by decide

/-! ### Results -/

theorem test_brev8_bv8 : brev .w8 0xB4#64 = 0x2D#64 := by decide
theorem test_brev8_bv10 : brev .w8 0xFFFFFFFFFFFFFF80#64 = 0x01#64 := by decide
theorem test_brev16_bv17 : brev .w16 0x1234#64 = 0x2C48#64 := by decide
theorem test_brev16_bv18 : brev .w16 0xFFFFFFFFFFFF0001#64 = 0x8000#64 := by decide
theorem test_brev32_bv26 : brev .w32 0xDEADBEEF#64 = 0xF77DB57B#64 := by decide
theorem test_brev32_bv28 : brev .w32 0x0123456789ABCDEF#64 = 0xF7B3D591#64 := by decide
theorem test_brev64_bv36 : brev .w64 0xDEADBEEFCAFEF00D#64 = 0xB00F7F53F77DB57B#64 := by decide
theorem test_popcnt8_pv6 : popcnt .w8 0xD2#64 = 4#64 := by decide
theorem test_popcnt8_pv8 : popcnt .w8 0xFFFFFFFFFFFFFF00#64 = 0#64 := by decide
theorem test_popcnt16_pv10 : popcnt .w16 0xFFFF#64 = 0x10#64 := by decide
theorem test_popcnt16_pv14 : popcnt .w16 0x1234#64 = 5#64 := by decide
theorem test_popcnt32_pv23 : popcnt .w32 0xDEADBEEF#64 = 0x18#64 := by decide
theorem test_popcnt64_pv26 : popcnt .w64 0xFFFFFFFFFFFFFFFF#64 = 0x40#64 := by decide +kernel
theorem test_popcnt64_pv31 : popcnt .w64 0xDEADBEEFCAFEF00D#64 = 0x2A#64 := by decide +kernel

/-! ### The reference algorithms' intermediate values (§2.3, §3.3) -/

theorem test_brev_swar_after_g4 : brevSwarOver .w8 [4] 0xB4#64 = 0x4B#64 := by decide
theorem test_brev_swar_after_g2 : brevSwarOver .w8 [4, 2] 0xB4#64 = 0x1E#64 := by decide
theorem test_brev_swar_64 : brevSwar .w64 0x0123456789ABCDEF#64 = 0xF7B3D591E6A2C480#64 := by decide
theorem test_popcnt_swar_after_g1 : popcntSwarOver .w8 [1] 0xD2#64 = 0x91#64 := by decide
theorem test_popcnt_swar_after_g2 : popcntSwarOver .w8 [1, 2] 0xD2#64 = 0x31#64 := by decide
theorem test_popcnt_swar_ff : popcntSwar .w8 0xFF#64 = 8#64 := by decide
theorem test_popcnt_swar_32_after_g8 : popcntSwarOver .w32 [1, 2, 4, 8] 0xDEADBEEF#64 = 0x000B000D#64 := by decide

/-! ### One step -/

/-- The state an outcome holds. -/
def nextOf : Host.Outcome State Fault Refusal → Option State
  | .next t => some t
  | .fault _ => none
  | .refused _ => none

/-- A block after its first reset edge, with these stages, whose host presents these cycles. -/
def block (stages : List Stage) (inputs : List Inputs) : State := ⟨stages, inputs, [], .resetSeen⟩

/-- A running cycle that presents a request. -/
def ask (op : BitVec 4) (a : Word) : Inputs := (Request.mk op a).inputs

/-- A cycle with `rst` = 1 that also drives a request. -/
def resetWith (op : BitVec 4) (a : Word) : Inputs := { ask op a with rst := true }

theorem test_step_brev8 : (nextOf (step (block [Stage.empty] [ask 0#4 0x80#64]))).map State.outputs = some ⟨true, 1#64, false⟩ := by
  decide
theorem test_step_reserved_rv8 :
    (nextOf (step (block [Stage.empty] [ask 15#4 0xDEADBEEFCAFEF00D#64]))).map State.outputs = some ⟨true, 0#64, true⟩ := by decide
theorem test_step_idle_tv1 :
    (nextOf (step (block [⟨true, 7#64, false⟩] [⟨true, false, false, 3#4, 0xFFFFFFFFFFFFFFFF#64⟩]))).map State.outputs =
      some ⟨false, 0#64, false⟩ := by decide
theorem test_step_reset_tv2 :
    (nextOf (step (block [⟨true, 0#64, false⟩, ⟨true, 0#64, true⟩] [resetWith 4#4 0xFF#64]))).map State.stages =
      some [Stage.empty, Stage.empty] := by decide
theorem test_reset_cycle_still_shows_response :
    (block [⟨true, 0#64, false⟩, ⟨true, 0#64, true⟩] [resetWith 4#4 0xFF#64]).outputs = ⟨true, 0#64, true⟩ := by decide
theorem test_combinational_reset_tv3 : (block [] [resetWith 0#4 1#64]).outputs = ⟨false, 0#64, false⟩ := by decide
theorem test_combinational_brev_tv4 : (block [] [ask 0#4 1#64]).outputs = ⟨true, 0x80#64, false⟩ := by decide
theorem test_step_moves_pipeline_tv5 :
    (nextOf (step (block [⟨true, 8#64, false⟩, Stage.empty, ⟨true, 1#64, false⟩] []))).map State.stages =
      some [Stage.empty, ⟨true, 8#64, false⟩, Stage.empty] := by decide
theorem test_step_stopped_clock :
    nextOf (step (block [⟨true, 8#64, false⟩] [{ ask 0#4 1#64 with clk := false }])) = some (block [⟨true, 8#64, false⟩] []) := by
  decide
theorem test_fetch_word_runs : (nextOf (step (State.reset.withFetchWord 8 0xD))).map State.stages =
    some [⟨true, 0#64, true⟩] := by decide

/-- A block with one stage after power-up, no reset edge yet (R68), whose host presents these cycles. -/
def waiting (inputs : List Inputs) : State := { State.powerUp 0 1 with inputs := inputs }

/-- R68: a request before the first reset edge starts nothing: the stages are drawn anew, and the block still waits. -/
theorem test_step_before_reset_waits :
    (nextOf (step (waiting [ask 0#4 1#64]))).map (fun t => (t.stages, t.phase)) =
      some (drawnStages 1 1, Phase.unreset 1) := by rfl
theorem test_first_reset_edge_r68 :
    (nextOf (step (waiting [resetWith 0#4 1#64]))).map (fun t => (t.stages, t.phase)) =
      some ([Stage.empty], Phase.resetSeen) := by rfl
theorem test_first_request_after_reset_r68 :
    (nextOf (runCycles 3 (waiting [ask 15#4 1#64, resetWith 0#4 1#64, ask 0#4 0x80#64]))).map State.outputs =
      some ⟨true, 1#64, false⟩ := by rfl

/-! ### Witnesses: the hypotheses of the statements can be met -/

theorem wit_func_of_each_kind : (0b0011#4).extractLsb' 2 2 = 0b00#2 ∧ (0b0100#4).extractLsb' 2 2 = 0b01#2 ∧
    (0b1011#4).extractLsb' 2 2 = 0b10#2 ∧ (0b1111#4).extractLsb' 2 2 = 0b11#2 := by decide
theorem wit_row_of_table : (⟨"RESERVED", 0x8#4, 0x8#4⟩ : OpcodeRow) ∈ opcodeTable := by decide
theorem wit_well_formed_bounds : (Instr.reserved 8#4 0#64).wellFormed = true ∧ (Instr.reserved 15#4 1#64).wellFormed = true := by
  decide
theorem wit_entry_first_and_last : (maskEntry .w8 1).isSome = true ∧ (maskEntry .w64 32).isSome = true := by decide
theorem wit_word_of_width : (0xFF#64).toNat < 2 ^ Width.bits .w8 ∧ 4 ∈ granularities .w8 := by decide
theorem wit_prefix_descending : [32, 16] <+: (granularities .w64).reverse := by decide
theorem wit_order : List.Perm [2, 1, 4] (granularities .w8) := by decide
theorem wit_prefix_first_step : ([] ++ [1]) <+: granularities .w8 ∧ 3 < Width.bits .w8 / (2 * 1) := by decide
theorem wit_prefix_last_step : ([1, 2, 4] ++ [8]) <+: granularities .w16 ∧ 0 < Width.bits .w16 / (2 * 8) := by decide
theorem wit_disjoint_masks : 0x0F#64 &&& 0xF0#64 = 0#64 ∧ 0xD2#64 &&& (0x0F#64 ||| 0xF0#64) = 0xD2#64 := by decide
theorem wit_same_low_bits : ∀ i, i < Width.bits .w8 → (0x180#64).getLsbD i = (0x80#64).getLsbD i := by decide

/-- The state of the witnesses about single cycles: two stages, a reserved request presented. -/
def witState : State := block [Stage.empty, ⟨true, 5#64, false⟩] [ask 15#4 1#64, Inputs.idle]

theorem wit_serving : witState.serving ∧ (block [] [ask 0#4 1#64]).serving ∧ (State.powerUp 3 0).serving ∧
    State.reset.serving := by decide
theorem wit_not_serving : ¬ (State.powerUp 0 1).serving := by decide
theorem wit_presents : witState.serving ∧ Inputs.presents witState.current (.reserved 15#4 1#64) ∧
    (15#4).extractLsb' 2 2 = 0b11#2 := by decide
theorem wit_later_cycles_run : ∀ k, 1 ≤ k → k < witState.latency → Inputs.running (witState.inputAt k) := by
  intro k h1 h2
  obtain rfl : k = 1 := by
    have : k < 2 := h2
    omega
  decide
theorem wit_exec_next : ∃ t, exec (.reserved 15#4 1#64) witState = .next t ∧ 1 ≤ witState.latency := ⟨_, rfl, by decide⟩
theorem wit_exec_next_twice : witState.serving ∧ State.reset.serving ∧ (∃ t, exec (.popcnt64 7#64) witState = .next t) ∧ 1 ≤ witState.latency ∧
    (∃ t, exec (.popcnt64 7#64) State.reset = .next t) ∧ 1 ≤ State.reset.latency :=
  ⟨by decide, by decide, ⟨_, rfl⟩, by decide, ⟨_, rfl⟩, by decide⟩
theorem wit_step_next : ∃ t, step witState = .next t := ⟨_, rfl⟩
theorem wit_latency_one : (block [Stage.empty] [ask 0#4 1#64]).serving ∧
    Inputs.presents (block [Stage.empty] [ask 0#4 1#64]).current (.brev8 1#64) := by decide
theorem wit_latency_zero : (block [] [ask 0#4 1#64]).serving ∧
    Inputs.presents (block [] [ask 0#4 1#64]).current (.brev8 1#64) ∧
    (block [] [ask 0#4 1#64]).latency = 0 := by decide
theorem wit_no_valid : Inputs.idle.reqValid = false := rfl

/-- A reset cycle, an idle cycle, then a request. -/
def witReset : State := block [⟨true, 9#64, false⟩] [resetWith 0#4 1#64, Inputs.idle, ask 0#4 1#64]

theorem wit_reset_cycle : witReset.current.clk = true ∧ witReset.current.rst = true ∧ 0 < witReset.latency := by decide
theorem wit_no_request_after_reset : ∀ k, 1 ≤ k → k ≤ 1 → (witReset.inputAt k).reqValid = false := by
  intro k h1 h2
  obtain rfl : k = 1 := by omega
  decide
theorem wit_reset_cycle_combinational : (block [] [resetWith 0#4 1#64]).latency = 0 ∧
    (block [] [resetWith 0#4 1#64]).current.rst = true := by decide
theorem wit_power_up_inputs : (resetWith 0#4 1#64).clk = true ∧ (resetWith 0#4 1#64).rst = true := by decide
theorem wit_stopped : (block [Stage.empty] [{ ask 0#4 1#64 with clk := false }]).current.clk = false ∧
    1 ≤ (block [Stage.empty] [{ ask 0#4 1#64 with clk := false }]).latency := by decide
theorem wit_clean_idle : witState.serving ∧ witState.clean ∧ (block [Stage.empty] []).clean ∧ (block [Stage.empty] []).outputs.v = false := by decide
theorem wit_delay_line : witState.serving ∧ witState.inputs = [ask 15#4 1#64] ++ [Inputs.idle] ∧ ∀ c ∈ [ask 15#4 1#64], Inputs.running c := by decide
theorem wit_clocked_run : witState.serving ∧ (∀ k, k < 3 → (witState.inputAt k).clk = true) ∧ 0 + witState.latency < 3 ∧
    (∀ k, k < 2 → (witState.inputAt k).rst = false) := by decide
theorem wit_clocked_run_with_reset : (∀ k, k < 2 → (witReset.inputAt k).clk = true) ∧ 0 + witReset.latency < 2 ∧
    (witReset.inputAt 0).rst = true := by decide
/-- From power-up: a request that is not served, the first reset edge, the first request that is (R68). -/
def witFirstReset : State := waiting [ask 15#4 1#64, resetWith 0#4 1#64, ask 0#4 0x80#64]

theorem wit_reset_before_request : ¬ witFirstReset.serving ∧ (∀ k, k < 4 → (witFirstReset.inputAt k).clk = true) ∧
    2 + witFirstReset.latency < 4 ∧ (1 < 2 ∧ (witFirstReset.inputAt 1).rst = true) ∧
    (∀ k, 2 ≤ k → k < 2 + max witFirstReset.latency 1 → (witFirstReset.inputAt k).rst = false) := by
  refine ⟨by decide, by decide, by decide, by decide, fun k h1 h2 => ?_⟩
  obtain rfl : k = 2 := by
    have : k < 3 := h2
    omega
  rfl
theorem wit_first_request_after_reset : witFirstReset = { State.powerUp 0 1 with inputs := witFirstReset.inputs } ∧
    (witFirstReset.inputAt 1).clk = true ∧ (witFirstReset.inputAt 1).rst = true ∧
    Inputs.presents (witFirstReset.inputAt (1 + 1)) (.brev8 0x80#64) ∧
    ∀ k, 1 ≤ k → k < 1 → Inputs.running (witFirstReset.inputAt (1 + 1 + k)) :=
  ⟨rfl, rfl, rfl, by decide, fun k h1 h2 => by omega⟩
theorem wit_steps_about_first_reset : (∃ t, step witFirstReset = .next t) ∧ (∃ t, step witReset = .next t) ∧
    (∃ t, step (block [] [resetWith 0#4 1#64]) = .next t) := ⟨⟨_, rfl⟩, ⟨_, rfl⟩, ⟨_, rfl⟩⟩
theorem wit_complete_run : (∀ c ∈ [ask 0#4 1#64], Inputs.running c) ∧
    (∀ c ∈ [Inputs.idle], Inputs.running c ∧ c.reqValid = false) ∧ [Inputs.idle].length = 1 := by decide
theorem wit_two_blocks : (block [Stage.empty] [ask 0#4 1#64]).serving ∧ (block [⟨true, 3#64, true⟩] [ask 0#4 1#64]).serving ∧
    (block [Stage.empty] [ask 0#4 1#64]).latency = (block [⟨true, 3#64, true⟩] [ask 0#4 1#64]).latency ∧
    Inputs.presents (block [Stage.empty] [ask 0#4 1#64]).current (.brev8 1#64) ∧
    Inputs.presents (block [⟨true, 3#64, true⟩] [ask 0#4 1#64]).current (.brev8 1#64) := by decide

/-- 95_test_vectors.md, program 1: `brev.8 0x80`, then `brev.8` of its result. -/
def witDependent : State := block [Stage.empty] [ask 0#4 0x80#64, ask 0#4 0x01#64]

theorem wit_dependent_request : witDependent.serving ∧ Inputs.presents witDependent.current (.brev8 0x80#64) ∧
    (∀ k, k < 2 * witDependent.latency → Inputs.running (witDependent.inputAt k)) ∧ 1 ≤ witDependent.latency ∧
    (witDependent.inputAt witDependent.latency).reqValid = true ∧
    ∀ u, runCycles witDependent.latency witDependent = .next u →
      (witDependent.inputAt witDependent.latency).reqA = u.outputs.y := by
  refine ⟨by decide, by decide, by decide, by decide, by decide, fun u h => ?_⟩
  injection h with h
  subst h
  decide
theorem wit_dependent_combinational :
    (block [] [ask 2#4 0x12345678#64, ask 6#4 0x1E6A2C48#64]).serving ∧
    Inputs.presents (block [] [ask 2#4 0x12345678#64, ask 6#4 0x1E6A2C48#64]).current (.brev32 0x12345678#64) ∧
    (block [] [ask 2#4 0x12345678#64, ask 6#4 0x1E6A2C48#64]).outputs.y =
      ((block [] [ask 2#4 0x12345678#64, ask 6#4 0x1E6A2C48#64]).inputAt 1).reqA := by decide
theorem wit_legal_program : (block [Stage.empty] [ask 7#4 1#64]).serving ∧ (block [Stage.empty] [ask 7#4 1#64]).hostSafe ∧ (block [Stage.empty] [ask 7#4 1#64]).drained ∧
    (block [Stage.empty] [ask 7#4 1#64]).clean ∧
    (∀ k, k < 1 → ((block [Stage.empty] [ask 7#4 1#64]).inputAt k).reqValid = true →
      ((block [Stage.empty] [ask 7#4 1#64]).inputAt k).reqOp.toNat < 8) ∧
    ∃ t, runCycles 1 (block [Stage.empty] [ask 7#4 1#64]) = .next t :=
  ⟨by decide, by decide, by decide, by decide, by decide, _, rfl⟩

end Sys2Proof.Machine
end

section
/-! SUPPORT. The invariant of R14: which records are clean, and that each operation over the pipeline keeps the stages
clean. -/

namespace Sys2Proof.Machine

theorem Stage.clean_empty : Stage.empty.clean := fun _ => ⟨rfl, rfl⟩

/-- Every request is answered, reserved ones too (R36, R64). -/
@[simp] theorem respOf_v (i : Instr) : (respOf i).v = true := by cases i <;> rfl

/-- The record of a cycle is clean: with a request it is a response, without one it is empty (R64). -/
theorem resp_clean (valid : Bool) (op : BitVec 4) (a : Word) : (resp valid op a).clean := by
  cases valid with
  | false => exact Stage.clean_empty
  | true =>
    intro hv
    simp [resp] at hv

theorem combinational_clean (c : Inputs) : (combinational c).clean := by
  unfold combinational
  split
  · exact Stage.clean_empty
  · exact resp_clean _ _ _

theorem State.resetFor_serving (L : Nat) : (State.resetFor L).serving := .inl rfl

theorem State.resetFor_clean (L : Nat) : (State.resetFor L).clean := by
  intro r hr
  rw [List.eq_of_mem_replicate hr]
  exact Stage.clean_empty

theorem State.resetEdge_clean (s : State) : s.resetEdge.clean := by
  intro r hr
  obtain ⟨-, -, rfl⟩ := List.mem_map.1 hr
  exact Stage.clean_empty

/-- In a serving block an edge only moves old stages and the cycle's own record (R65), so clean ones stay clean. -/
theorem State.clockEdge_clean {r : Stage} {s : State} (hs : s.serving) (hc : s.clean) (hr : r.clean) :
    (s.clockEdge r).clean := by
  intro q hq
  rw [State.clockEdge_stages, State.stagesAfterEdge_of_serving r hs] at hq
  rcases List.mem_cons.1 (List.mem_of_mem_dropLast hq) with rfl | hq
  · exact hr
  · exact hc q hq

theorem step_keeps_clean {s t : State} (hs : s.serving) (hc : s.clean) (h : step s = .next t) : t.clean := by
  rcases step_cases s with ⟨-, e⟩ | ⟨-, -, e⟩ | ⟨-, e⟩ <;>
    obtain rfl := Host.Outcome.next.inj (e.symm.trans h)
  · exact hc
  · exact s.resetEdge_clean
  · exact State.clockEdge_clean hs hc (resp_clean _ _ _)

/-- The ports show the last stage or the cycle's own record (R13, R66), so they are clean when these are. -/
theorem State.ports_clean {r : Stage} {s : State} (hc : s.clean) (hr : r.clean) : (s.ports r).clean := by
  have hmem : s.ports r ∈ r :: s.stages := List.getLastD_mem_cons
  rcases List.mem_cons.1 hmem with h | h
  · rwa [h]
  · exact hc _ h

/-- Settles O43: the reset state and a reset edge leave only empty stages; an edge of a serving block adds only the cycle's
record, which is clean. -/
theorem emptyStagesStayZero : Obligations.EmptyStagesStayZero := by
  refine ⟨fun L => ⟨State.resetFor_serving L, State.resetFor_clean L⟩, fun s t hclk hrst h => ?_,
    fun s t hs hc h => ⟨step_keeps_serving hs h, step_keeps_clean hs hc h⟩,
    fun s hc => State.ports_clean hc (combinational_clean _)⟩
  obtain rfl := Host.Outcome.next.inj ((step_reset hclk hrst).symm.trans h)
  exact ⟨s.resetEdge_serving, s.resetEdge_clean⟩

/-- Settles O44: the reference build is the case `L` = 1. -/
theorem resetStateIsClean : Obligations.ResetStateIsClean :=
  ⟨State.resetFor_serving _, State.resetFor_clean _⟩

end Sys2Proof.Machine
end

section
/-! SUPPORT. The reset state, the frame of a request, and what a step reads of the current cycle. -/

namespace Sys2Proof.Machine

@[simp] theorem State.resetFor_stage (L k : Nat) : (State.resetFor L).stage k = Stage.empty := by
  rw [State.stage, State.resetFor_stages, List.getElem?_replicate]
  split <;> rfl

/-- With at least one stage the ports show the last one, whatever the cycle presents (R13). -/
theorem State.ports_eq_last_stage (r : Stage) {s : State} (h : 1 ≤ s.latency) : s.ports r = s.stage s.latency := by
  rw [State.ports_eq, if_neg (by omega)]

theorem State.resetFor_outputs {L : Nat} (h : 1 ≤ L) : (State.resetFor L).outputs = Stage.empty := by
  rw [State.outputs, State.ports_eq_last_stage _ (by simpa using h), State.resetFor_stage]

/-- Settles O42: `L` copies of the empty record, read stage by stage and at the ports. -/
theorem resetStateIsEmpty : Obligations.ResetStateIsEmpty :=
  ⟨fun L => ⟨State.resetFor_latency L, fun k _ _ => State.resetFor_stage L k⟩,
    fun _ h => State.resetFor_outputs h, State.resetFor_latency _, State.resetFor_serving⟩

theorem step_keeps_latency {s t : State} (h : step s = .next t) : t.latency = s.latency := by
  obtain ⟨u, hu, -, hl⟩ := step_total s
  obtain rfl := Host.Outcome.next.inj (hu.symm.trans h)
  exact hl

/-- Settles O41: the latency is the number of stages. -/
theorem stepKeepsLatency : Obligations.StepKeepsLatency := fun _ _ h => step_keeps_latency h

/-- Settles O31: a request is one clock edge, and each clause is what that edge does to one field. -/
theorem requestFrame : Obligations.RequestFrame := by
  intro i s t h
  obtain rfl := exec_next h
  exact ⟨State.clockEdge_latency _ s, fun hs k h1 hk => State.clockEdge_stage_succ _ hs k h1 hk,
    Phase.afterEdge_eq_resetSeen s.phase, State.clockEdge_inputs _ s, s.ports (respOf i),
    State.clockEdge_trace _ s, State.ports_eq_last_stage _⟩

/-- Settles O32: in either block `stage[1]` takes the response record, which is a function of the request alone. -/
theorem requestReadsNoStage : Obligations.RequestReadsNoStage := by
  intro i s s' t t' hs hs' hL hL' h h'
  rw [exec_next h, exec_next h', State.clockEdge_stage_one _ hs hL, State.clockEdge_stage_one _ hs' hL']

/-- The record of a cycle that presents a request is the response to it (R64). -/
theorem resp_of_presents {c : Inputs} {i : Instr} (h : Inputs.presents c i) :
    resp c.reqValid c.reqOp c.reqA = respOf i := by
  obtain ⟨-, hv, hi⟩ := h
  simp [resp, hv, hi]

/-- Settles O33: a running cycle's edge takes the cycle's record, and so does exec's. -/
theorem stepRunsPresentedRequest : Obligations.StepRunsPresentedRequest := by
  intro s i h
  rw [step_running h.1, resp_of_presents h, exec_eq]

/-- Of the current cycle a step reads no more than what the cycle asks of the block: each edge, and the stopped clock,
only drops the cycle from the list. -/
theorem step_withCurrent_congr (s : State) {c c' : Inputs} (h : decodeInputs c = decodeInputs c') :
    step (s.withCurrent c) = step (s.withCurrent c') := by
  simp only [step, State.withCurrent_current, h, exec_eq]
  rcases decodeInputs c' with (_ | _ | _) | i <;> rfl

/-- With `req_valid` = 0 a cycle asks the same of the block whatever `req_op` and `req_a` carry (R12). -/
theorem decodeInputs_of_not_valid {c : Inputs} (h : c.reqValid = false) (op : BitVec 4) (a : Word) :
    decodeInputs { c with reqOp := op, reqA := a } = decodeInputs c := by
  simp [decodeInputs, h]

/-- With `req_valid` = 0 the combinational path answers nothing (R66). -/
theorem combinational_of_not_valid {c : Inputs} (h : c.reqValid = false) : combinational c = Stage.empty := by
  simp [combinational, resp, h]

theorem State.outputs_withCurrent (s : State) (c : Inputs) : (s.withCurrent c).outputs = s.ports (combinational c) := rfl

/-- Settles O35: neither the combinational answer nor the decoding of such a cycle reads the two ports. -/
theorem idleCycleIgnoresOpAndOperand : Obligations.IdleCycleIgnoresOpAndOperand := by
  intro s c op a hv
  refine ⟨?_, step_withCurrent_congr s (decodeInputs_of_not_valid hv op a)⟩
  rw [State.outputs_withCurrent, State.outputs_withCurrent, combinational_of_not_valid hv,
    combinational_of_not_valid (c := { c with reqOp := op, reqA := a }) hv]

end Sys2Proof.Machine
end

section
/-! SUPPORT. The mask table: which entries it has, and the identities of R20 to R22 from its bits. -/

namespace Sys2Proof.Machine

/-- The (width, granularity) pairs of the rows, in the table's order (R21). -/
theorem maskRom_keys :
    maskRom.map (fun e => (e.width, e.g)) = Width.all.flatMap fun W => (granularities W).map (W, ·) := rfl

theorem maskEntry_isSome_iff (W : Width) (g : Nat) : (maskEntry W g).isSome = true ↔ g ∈ granularities W := by
  have hrow : (maskEntry W g).isSome = true ↔ (W, g) ∈ maskRom.map fun e => (e.width, e.g) := by
    simp [maskEntry, List.find?_isSome]
  have hW : W ∈ Width.all := by cases W <;> decide
  rw [hrow, maskRom_keys]
  simp [hW]

/-- A width's granularities are the powers of two from 1 on, one for each step of its algorithms (R19). -/
theorem granularities_eq (W : Width) :
    granularities W = (List.range (granularities W).length).map (2 ^ ·) := by cases W <;> rfl

@[simp] theorem Width.bits_w64 : Width.w64.bits = 64 := rfl

theorem Width.bits_eq_two_pow (W : Width) : W.bits = 2 ^ (granularities W).length := by cases W <;> rfl

theorem mem_granularities_iff (W : Width) (g : Nat) : g ∈ granularities W ↔ ∃ k, g = 2 ^ k ∧ g < W.bits := by
  rw [granularities_eq, Width.bits_eq_two_pow, List.mem_map]
  constructor
  · rintro ⟨k, hk, rfl⟩
    exact ⟨k, rfl, Nat.pow_lt_pow_right (by decide) (List.mem_range.1 hk)⟩
  · rintro ⟨k, rfl, hk⟩
    exact ⟨k, List.mem_range.2 ((Nat.pow_lt_pow_iff_right (by decide)).1 hk), rfl⟩

theorem granularity_pos {W : Width} {g : Nat} (hg : g ∈ granularities W) : 0 < g := by
  obtain ⟨k, rfl, -⟩ := (mem_granularities_iff W g).1 hg
  exact Nat.two_pow_pos k

/-- The groups of a width come in pairs: their number `W / g` is even. -/
theorem exists_bits_eq_pairs {W : Width} {g : Nat} (hg : g ∈ granularities W) : ∃ m, W.bits = 2 * m * g := by
  obtain ⟨k, rfl, hk⟩ := (mem_granularities_iff W g).1 hg
  rw [Width.bits_eq_two_pow] at hk ⊢
  have hlt : k < (granularities W).length := (Nat.pow_lt_pow_iff_right (by decide)).1 hk
  refine ⟨2 ^ ((granularities W).length - (k + 1)), ?_⟩
  rw [Nat.mul_assoc, Nat.mul_comm, Nat.mul_assoc, ← Nat.pow_succ, ← Nat.pow_add]
  congr 1
  omega

/-- The wide table has every granularity. -/
theorem granularity_of_w64 {W : Width} {g : Nat} (hg : g ∈ granularities W) : g ∈ granularities .w64 := by
  obtain ⟨k, hk, hlt⟩ := (mem_granularities_iff W g).1 hg
  exact (mem_granularities_iff .w64 g).2 ⟨k, hk, Nat.lt_of_lt_of_le hlt (Width.bits_le W)⟩

/-- Bit i of `ones(N)` (R8). -/
@[simp] theorem getLsbD_ones (N i : Nat) : (ones N).getLsbD i = (decide (i < 64) && decide (i < N)) := by
  rw [ones, BitVec.getLsbD_ofNat, Nat.testBit_two_pow_sub_one]

/-- Of the bits below W, those not in `LOW(W,g)` are in `HIGH(W,g)`: a group that is not even is odd (R20). -/
theorem getLsbD_highMask_eq_not {W : Width} {g : Nat} (hg : g ∈ granularities W) {i : Nat} (hi : i < 64) :
    (highMask W g).getLsbD i = (decide (i < W.bits) && !(lowMask W g).getLsbD i) := by
  rw [getLsbD_highMask W g hg i hi, getLsbD_lowMask W g hg i hi]
  rcases Nat.mod_two_eq_zero_or_one (i / g) with h | h <;> simp [h]

theorem highMask_eq_complement {W : Width} {g : Nat} (hg : g ∈ granularities W) :
    highMask W g = ~~~(lowMask W g) &&& ones W.bits := by
  apply BitVec.eq_of_getLsbD_eq
  intro i hi
  rw [BitVec.getLsbD_and, BitVec.getLsbD_not, getLsbD_ones, getLsbD_highMask_eq_not hg hi]
  simp [hi, Bool.and_comm]

theorem lowMask_xor_highMask {W : Width} {g : Nat} (hg : g ∈ granularities W) :
    lowMask W g ^^^ highMask W g = ones W.bits := by
  apply BitVec.eq_of_getLsbD_eq
  intro i hi
  rw [BitVec.getLsbD_xor, getLsbD_highMask_eq_not hg hi, getLsbD_ones, getLsbD_lowMask W g hg i hi]
  by_cases hW : i < W.bits <;> simp [hW, hi]

theorem lowMask_and_highMask {W : Width} {g : Nat} (hg : g ∈ granularities W) :
    lowMask W g &&& highMask W g = 0#64 := by
  rw [highMask_eq_complement hg, ← BitVec.and_assoc, BitVec.and_not_self]
  exact BitVec.zero_and

/-- Settles O7: the rows are those of the powers of two below W, and each mask is read bit by bit. -/
theorem maskTableEntriesFollowFormula : Obligations.MaskTableEntriesFollowFormula := by
  refine ⟨fun W g => (maskEntry_isSome_iff W g).trans (mem_granularities_iff W g), fun W g h => ?_⟩
  have hg := (maskEntry_isSome_iff W g).1 h
  refine ⟨fun i hi => ?_, highMask_eq_complement hg, lowMask_xor_highMask hg, lowMask_and_highMask hg⟩
  rw [getLsbD_lowMask W g hg i (Nat.lt_of_lt_of_le hi (Width.bits_le W))]
  simp [hi]

/-- Whether a group is even does not depend on the width, so the masks of a width are cut from the wide ones (R21). -/
theorem masks_eq_low_bits {W : Width} {g : Nat} (hg : g ∈ granularities W) :
    lowMask W g = lowMask .w64 g &&& ones W.bits ∧ highMask W g = highMask .w64 g &&& ones W.bits := by
  have h64 := granularity_of_w64 hg
  refine ⟨BitVec.eq_of_getLsbD_eq fun i hi => ?_, BitVec.eq_of_getLsbD_eq fun i hi => ?_⟩
  · rw [BitVec.getLsbD_and, getLsbD_ones, getLsbD_lowMask W g hg i hi, getLsbD_lowMask .w64 g h64 i hi]
    simp [hi, Bool.and_comm]
  · rw [BitVec.getLsbD_and, getLsbD_ones, getLsbD_highMask W g hg i hi, getLsbD_highMask .w64 g h64 i hi]
    simp [hi, Bool.and_comm]

/-- Settles O8: the rows are counted, and the masks of a width compared with the wide ones bit by bit. -/
theorem maskTableSizeAndNesting : Obligations.MaskTableSizeAndNesting :=
  ⟨rfl, maskEntry_isSome_iff, fun _ _ => masks_eq_low_bits⟩

/-- An even group is never a width's last one: the group after it is within the width too. -/
theorem add_granularity_lt_bits_iff {W : Width} {g i : Nat} (hg : g ∈ granularities W) (heven : i / g % 2 = 0) :
    i + g < W.bits ↔ i < W.bits := by
  have hpos := granularity_pos hg
  obtain ⟨m, hm⟩ := exists_bits_eq_pairs hg
  rw [hm, ← Nat.div_lt_iff_lt_mul hpos, ← Nat.div_lt_iff_lt_mul hpos, Nat.add_div_right i hpos]
  omega

/-- The bit g places up is in an odd group exactly when the bit itself is in an even one. -/
theorem add_div_mod_two_eq_one_iff {g : Nat} (hpos : 0 < g) (i : Nat) : (i + g) / g % 2 = 1 ↔ i / g % 2 = 0 := by
  rw [Nat.add_div_right i hpos]
  omega

/-- The bit of `HIGH(W,g)` g places above bit i, which may lie beyond the bus. -/
theorem getLsbD_highMask_add {W : Width} {g : Nat} (hg : g ∈ granularities W) (i : Nat) :
    (highMask W g).getLsbD (i + g) = (decide (i + g < W.bits) && decide (i / g % 2 = 0)) := by
  have hW := Width.bits_le W
  by_cases h64 : i + g < 64
  · simp only [getLsbD_highMask W g hg _ h64, add_div_mod_two_eq_one_iff (granularity_pos hg)]
  · rw [BitVec.getLsbD_of_ge _ _ (by omega), decide_eq_false (by omega), Bool.false_and]

/-- R22: `HIGH(W,g) >> g = LOW(W,g)`. -/
theorem highMask_shiftRight {W : Width} {g : Nat} (hg : g ∈ granularities W) : highMask W g >>> g = lowMask W g := by
  apply BitVec.eq_of_getLsbD_eq
  intro i hi
  rw [BitVec.getLsbD_ushiftRight, Nat.add_comm g i, getLsbD_highMask_add hg, getLsbD_lowMask W g hg i hi]
  by_cases heven : i / g % 2 = 0
  · simp only [add_granularity_lt_bits_iff hg heven]
  · simp [heven]

/-- R22: `LOW(W,g) << g`, restricted to W bits, is `HIGH(W,g)`. -/
theorem lowMask_shiftLeft {W : Width} {g : Nat} (hg : g ∈ granularities W) :
    (lowMask W g <<< g) &&& ones W.bits = highMask W g := by
  apply BitVec.eq_of_getLsbD_eq
  intro i hi
  rw [BitVec.getLsbD_and, BitVec.getLsbD_shiftLeft, getLsbD_ones]
  by_cases hig : i < g
  · simp [hig, getLsbD_highMask W g hg i hi, Nat.div_eq_of_lt hig]
  · obtain ⟨j, rfl⟩ : ∃ j, i = j + g := ⟨i - g, by omega⟩
    rw [getLsbD_highMask_add hg, Nat.add_sub_cancel, getLsbD_lowMask W g hg j (by omega)]
    by_cases heven : j / g % 2 = 0
    · simp [hi, heven, add_granularity_lt_bits_iff hg heven]
    · simp [heven]

/-- Settles O9: the third identity is the first, since a shift distributes over a mask. -/
theorem maskTableShiftIdentities : Obligations.MaskTableShiftIdentities := by
  intro W g h
  have hg := (maskEntry_isSome_iff W g).1 h
  refine ⟨highMask_shiftRight hg, lowMask_shiftLeft hg, fun v _ => ?_⟩
  rw [BitVec.ushiftRight_and_distrib, highMask_shiftRight hg]

end Sys2Proof.Machine
end

section
/-! SUPPORT. Runs of clocked cycles: how a run begins and splits, what it records, when it leaves a serving block, and what
becomes of a record on its way through the stages. -/

namespace Sys2Proof.Machine

theorem step_inputAt {s t : State} (h : step s = .next t) (k : Nat) : t.inputAt k = s.inputAt (k + 1) := by
  obtain ⟨u, hu, hi, -⟩ := step_total s
  obtain rfl := Host.Outcome.next.inj (hu.symm.trans h)
  exact State.inputAt_of_inputs_tail hi k

/-- The first cycle of a run, and the rest of it. -/
theorem exists_step_of_runCycles_succ {n : Nat} {s t : State} (h : runCycles (n + 1) s = .next t) :
    ∃ u, step s = .next u ∧ runCycles n u = .next t := by
  obtain ⟨u, hu, -⟩ := step_total s
  exact ⟨u, hu, (runCycles_succ n hu).symm.trans h⟩

theorem runCycles_latency {n : Nat} {s t : State} (h : runCycles n s = .next t) : t.latency = s.latency := by
  obtain ⟨u, hu, -, hl⟩ := runCycles_total n s
  obtain rfl := Host.Outcome.next.inj (hu.symm.trans h)
  exact hl

/-- After `n` cycles every later cycle is `n` nearer. -/
theorem runCycles_inputAt {n : Nat} {s t : State} (h : runCycles n s = .next t) (k : Nat) :
    t.inputAt k = s.inputAt (n + k) := by
  obtain ⟨u, hu, hi, -⟩ := runCycles_total n s
  obtain rfl := Host.Outcome.next.inj (hu.symm.trans h)
  rw [State.inputAt, State.inputAt, hi, List.getElem?_drop]

theorem runCycles_current {n : Nat} {s t : State} (h : runCycles n s = .next t) : t.current = s.inputAt n :=
  runCycles_inputAt h 0

/-! ### The record of a run (log 4) -/

/-- A clocked cycle appends its port values to the trace; in a reset cycle with `L` = 0 these are zero (R66). -/
theorem step_trace {s t : State} (hclk : s.current.clk = true) (h : step s = .next t) :
    t.trace = s.trace ++ [s.outputs] := by
  rcases step_cases s with ⟨hc, -⟩ | ⟨-, hr, e⟩ | ⟨⟨-, hr⟩, e⟩
  · simp [hclk] at hc
  all_goals
    obtain rfl := Host.Outcome.next.inj (e.symm.trans h)
    simp [State.outputs, combinational, hr]

/-- A run of clocked cycles only adds to the trace, one entry for each cycle. -/
theorem runCycles_trace {n : Nat} {s t : State} (hclk : ∀ k, k < n → (s.inputAt k).clk = true)
    (h : runCycles n s = .next t) : ∃ new, new.length = n ∧ t.trace = s.trace ++ new := by
  induction n generalizing s with
  | zero =>
    obtain rfl := Host.Outcome.next.inj h
    exact ⟨[], rfl, (List.append_nil _).symm⟩
  | succ n ih =>
    obtain ⟨u, hu, hrun⟩ := exists_step_of_runCycles_succ h
    obtain ⟨new, hlen, htr⟩ := ih (fun k hk => step_inputAt hu k ▸ hclk (k + 1) (by omega)) hrun
    exact ⟨s.outputs :: new, by rw [List.length_cons, hlen],
      by rw [htr, step_trace (hclk 0 (by omega)) hu, List.append_assoc, List.singleton_append]⟩

/-- The trace of a run of clocked cycles holds, for each cycle `m` of it, what the ports showed in that cycle. -/
theorem runCycles_trace_getElem {m n : Nat} {s t u : State} (hclk : ∀ k, k < n → (s.inputAt k).clk = true)
    (hm : m < n) (hu : runCycles m s = .next u) (ht : runCycles n s = .next t) :
    t.trace[s.trace.length + m]? = some u.outputs := by
  obtain ⟨r, rfl⟩ : ∃ r, n = m + (r + 1) := ⟨n - m - 1, by omega⟩
  obtain ⟨v, hv, hrun⟩ := exists_step_of_runCycles_succ ((runCycles_add m (r + 1) hu).symm.trans ht)
  have hclk' : ∀ k, k < r + 1 → (u.inputAt k).clk = true := fun k hk =>
    runCycles_inputAt hu k ▸ hclk (m + k) (by omega)
  obtain ⟨before, hlen, hbefore⟩ := runCycles_trace (fun k hk => hclk k (by omega)) hu
  obtain ⟨after, -, hafter⟩ := runCycles_trace (fun k hk => step_inputAt hv k ▸ hclk' (k + 1) (by omega)) hrun
  have htrace : t.trace = (s.trace ++ before) ++ u.outputs :: after := by
    rw [hafter, step_trace (hclk' 0 (by omega)) hv, hbefore, List.append_assoc _ [_], List.singleton_append]
  have hindex : s.trace.length + m = (s.trace ++ before).length := by rw [List.length_append, hlen]
  rw [htrace, hindex, List.getElem?_append_right le_rfl, Nat.sub_self, List.getElem?_cons_zero]

/-! ### Service and the way through the stages -/

/-- After a run a block serves requests if it did at the start or a reset edge came in the run (R68). -/
theorem runCycles_serving {n : Nat} {s t : State} (hclk : ∀ k, k < n → (s.inputAt k).clk = true)
    (hs : s.serving ∨ ∃ k, k < n ∧ (s.inputAt k).rst = true) (h : runCycles n s = .next t) : t.serving := by
  induction n generalizing s with
  | zero =>
    obtain rfl := Host.Outcome.next.inj h
    rcases hs with hs | ⟨k, hk, -⟩
    · exact hs
    · omega
  | succ n ih =>
    obtain ⟨u, hu, hrun⟩ := exists_step_of_runCycles_succ h
    refine ih (fun k hk => step_inputAt hu k ▸ hclk (k + 1) (by omega)) ?_ hrun
    rcases hs with hs | ⟨_ | k, hk, hr⟩
    · exact .inl (step_keeps_serving hs hu)
    · obtain rfl := Host.Outcome.next.inj ((step_reset (hclk 0 hk) hr).symm.trans hu)
      exact .inl s.resetEdge_serving
    · exact .inr ⟨k, by omega, by rw [step_inputAt hu, hr]⟩

/-- What a clocked cycle of a serving block leaves in `stage[k+1]`: what `stage[k]` held (R65), or nothing (R67). -/
theorem step_stage_succ {s t : State} (hs : s.serving) (hclk : s.current.clk = true) (h : step s = .next t) {k : Nat}
    (h1 : 1 ≤ k) (hk : k < s.latency) : t.stage (k + 1) = if s.current.rst then Stage.empty else s.stage k := by
  rcases step_cases s with ⟨hc, -⟩ | ⟨-, hr, e⟩ | ⟨⟨-, hr⟩, e⟩
  · simp [hclk] at hc
  · obtain rfl := Host.Outcome.next.inj (e.symm.trans h)
    simp [hr, State.resetEdge_stage]
  · obtain rfl := Host.Outcome.next.inj (e.symm.trans h)
    simp [hr, State.clockEdge_stage_succ _ hs k h1 hk]

/-- Through `j` clocked cycles of a serving block a record moves `j` stages on, if no reset edge comes, or if it is the
empty record, which a reset edge puts into every stage. -/
theorem runCycles_carries {j k : Nat} {r : Stage} {s t : State} (hs : s.serving)
    (hclk : ∀ i, i < j → (s.inputAt i).clk = true) (hrst : ∀ i, i < j → (s.inputAt i).rst = true → r = Stage.empty)
    (h1 : 1 ≤ k) (hk : k + j ≤ s.latency) (hr : s.stage k = r) (h : runCycles j s = .next t) :
    t.stage (k + j) = r := by
  induction j generalizing s k with
  | zero =>
    obtain rfl := Host.Outcome.next.inj h
    exact hr
  | succ j ih =>
    obtain ⟨u, hu, hrun⟩ := exists_step_of_runCycles_succ h
    have hnext : u.stage (k + 1) = r := by
      rw [step_stage_succ hs (hclk 0 (by omega)) hu h1 (by omega), hr]
      split
      · next hreset => exact (hrst 0 (by omega) hreset).symm
      · rfl
    have hroom : k + 1 + j ≤ u.latency := by rw [step_keeps_latency hu]; omega
    have hmoved := ih (step_keeps_serving hs hu) (fun i hi => step_inputAt hu i ▸ hclk (i + 1) (by omega))
      (fun i hi => step_inputAt hu i ▸ hrst (i + 1) (by omega)) (by omega) hroom hnext hrun
    rwa [Nat.add_right_comm] at hmoved

/-- With `L` = 0 the ports show the combinational answer (R66). -/
theorem State.outputs_of_latency_zero {s : State} (h : s.latency = 0) : s.outputs = combinational s.current := by
  rw [State.outputs, State.ports_eq, if_pos h]

/-- With `L` ≥ 1 the ports show `stage[L]` (R13). -/
theorem State.outputs_of_latency_pos {s : State} (h : 1 ≤ s.latency) : s.outputs = s.stage s.latency :=
  State.ports_eq_last_stage _ h

/-- `L` cycles after a cycle of a serving block the ports show the cycle's own record, if no reset edge comes (R65). -/
theorem outputs_after_latency {s t : State} (hs : s.serving)
    (hrun : ∀ k, k < max s.latency 1 → Inputs.running (s.inputAt k)) (h : runCycles s.latency s = .next t) :
    t.outputs = resp s.current.reqValid s.current.reqOp s.current.reqA := by
  have hnow : Inputs.running s.current := hrun 0 (by omega)
  have hlat := runCycles_latency h
  cases hL : s.latency with
  | zero =>
    rw [hL] at h
    obtain rfl := Host.Outcome.next.inj h
    rw [State.outputs_of_latency_zero hL, combinational, hnow.2]
    rfl
  | succ j =>
    rw [hL] at h
    obtain ⟨u, hu, hrest⟩ := exists_step_of_runCycles_succ h
    have hlater : ∀ i, i < j → Inputs.running (u.inputAt i) := fun i hi =>
      step_inputAt hu i ▸ hrun (i + 1) (by omega)
    have hfirst : u.stage 1 = resp s.current.reqValid s.current.reqOp s.current.reqA := by
      obtain rfl := Host.Outcome.next.inj ((step_running hnow).symm.trans hu)
      exact State.clockEdge_stage_one _ hs (by omega)
    have hroom : 1 + j ≤ u.latency := by rw [step_keeps_latency hu]; omega
    have hlast := runCycles_carries (step_keeps_serving hs hu) (fun i hi => (hlater i hi).1)
      (fun i hi hr => by simp [(hlater i hi).2] at hr) le_rfl hroom hfirst hrest
    rw [State.outputs_of_latency_pos (by omega), hlat, hL, Nat.add_comm j, hlast]

/-- If a reset edge comes in a cycle or before its record is on the ports, they show nothing `L` cycles after it (R67). -/
theorem outputs_empty_of_reset {k : Nat} {s t : State} (hclk : ∀ i, i < max s.latency 1 → (s.inputAt i).clk = true)
    (hk : k < max s.latency 1) (hr : (s.inputAt k).rst = true) (h : runCycles s.latency s = .next t) :
    t.outputs = Stage.empty := by
  have hlat := runCycles_latency h
  by_cases hL : s.latency = 0
  · rw [hL] at h
    obtain rfl := Host.Outcome.next.inj h
    obtain rfl : k = 0 := by omega
    rw [State.outputs_of_latency_zero hL, combinational, ← State.inputAt_zero, if_pos hr]
  · obtain ⟨j, hj⟩ : ∃ j, s.latency = k + (j + 1) := ⟨s.latency - k - 1, by omega⟩
    obtain ⟨u, hu, -, hul⟩ := runCycles_total k s
    rw [hj, runCycles_add k (j + 1) hu] at h
    obtain ⟨v, hv, hrest⟩ := exists_step_of_runCycles_succ h
    have hcycle := runCycles_current hu
    have hreset : step u = .next u.resetEdge := step_reset (hcycle ▸ hclk k hk) (hcycle ▸ hr)
    obtain rfl := Host.Outcome.next.inj (hreset.symm.trans hv)
    have hroom : k + 1 + j ≤ u.resetEdge.latency := by rw [State.resetEdge_latency]; omega
    have hlast := runCycles_carries u.resetEdge_serving
      (fun i hi => by rw [step_inputAt hv, runCycles_inputAt hu]; exact hclk _ (by omega)) (fun _ _ _ => rfl)
      (by omega) hroom (u.resetEdge_stage (k + 1)) hrest
    rw [State.outputs_of_latency_pos (by omega), hlat, hj, Nat.add_comm j, ← Nat.add_assoc, hlast]

end Sys2Proof.Machine
end

section
/-! SUPPORT. The statements of 20_memory.md R28: each request is answered in order, and from itself alone. -/

namespace Sys2Proof.Machine

/-- Settles O49: the trace entry of cycle `n + L` is what the ports showed then, and cycle `n` is the start of the `L`
cycles that decide it. -/
theorem eachRequestAnsweredInOrderUnlessReset : Obligations.EachRequestAnsweredInOrderUnlessReset := by
  intro s N n hclk hN
  obtain ⟨t, ht, -⟩ := runCycles_total N s
  obtain ⟨u, hu, -, hul⟩ := runCycles_total n s
  obtain ⟨v, hv, -⟩ := runCycles_total u.latency u
  obtain ⟨new, hnew, htrace⟩ := runCycles_trace hclk ht
  have hentry : t.trace[s.trace.length + (n + s.latency)]? = some v.outputs :=
    runCycles_trace_getElem hclk hN (by rw [runCycles_add n _ hu, ← hul, hv]) ht
  have hcycle := runCycles_inputAt hu
  have hclk' : ∀ k, k < max u.latency 1 → (u.inputAt k).clk = true := fun k hk =>
    hcycle k ▸ hclk (n + k) (by omega)
  refine ⟨t, ht, by rw [htrace, List.length_append, hnew], fun hserving hrst => ?_, fun ⟨k, hnk, hk, hr⟩ => ?_⟩
  · have hserve : u.serving := runCycles_serving (fun k hk => hclk k (by omega)) hserving hu
    have hrun : ∀ k, k < max u.latency 1 → Inputs.running (u.inputAt k) := fun k hk =>
      ⟨hclk' k hk, hcycle k ▸ hrst (n + k) (by omega) (by omega)⟩
    rw [hentry, outputs_after_latency hserve hrun hv, runCycles_current hu]
  · obtain ⟨i, rfl⟩ := Nat.exists_eq_add_of_le hnk
    rw [hentry, outputs_empty_of_reset hclk' (by omega) (hcycle i ▸ hr) hv]
    rfl

/-- `L` cycles after a serving block is presented a request, and no reset edge since, the ports show the response to it. -/
theorem outputs_of_presents {s t : State} {i : Instr} (hs : s.serving) (hi : Inputs.presents s.current i)
    (hrun : ∀ k, 1 ≤ k → k < s.latency → Inputs.running (s.inputAt k)) (h : runCycles s.latency s = .next t) :
    t.outputs = respOf i := by
  have hrun' : ∀ k, k < max s.latency 1 → Inputs.running (s.inputAt k)
    | 0, _ => hi.1
    | k + 1, hk => hrun (k + 1) (by omega) (by omega)
  rw [outputs_after_latency hs hrun' h, resp_of_presents hi]

/-- Settles O51: both blocks show the response record, a function of the request alone. -/
theorem responseIndependentOfOtherRequests : Obligations.ResponseIndependentOfOtherRequests := by
  intro s s' i hs hs' hL hi hi' hrun hrun'
  obtain ⟨t, ht, -⟩ := runCycles_total s.latency s
  obtain ⟨t', ht', -⟩ := runCycles_total s'.latency s'
  refine ⟨t, t', ht, hL ▸ ht', ?_⟩
  rw [outputs_of_presents hs hi hrun ht, outputs_of_presents hs' hi' (fun k h1 hk => hrun' k h1 (hL ▸ hk)) ht']

end Sys2Proof.Machine
end

section
/-! SUPPORT. The decoder and the encoder by the fields of the op (R32 to R39): what each `func` decodes to, and that the
encoder and the decoder undo each other. -/

namespace Sys2Proof

/-- The reserved ops are those of func 10 and 11 (R33, R36). -/
theorem eight_le_op_iff : ∀ op : BitVec 4, 8 ≤ op.toNat ↔ opFunc op = 0b10#2 ∨ opFunc op = 0b11#2 := by decide

/-- Every op is a bit reversal's, a population count's or reserved (R33). -/
theorem opFunc_cases : ∀ op : BitVec 4, opFunc op = 0b00#2 ∨ opFunc op = 0b01#2 ∨ 8 ≤ op.toNat := by decide

theorem decode_of_func_00 {op : BitVec 4} (h : opFunc op = 0b00#2) (a : Word) :
    decode ⟨op, a⟩ = brevOf (Width.ofSel (opWsel op)) a := by
  simp [decode, h]

theorem decode_of_func_01 {op : BitVec 4} (h : opFunc op = 0b01#2) (a : Word) :
    decode ⟨op, a⟩ = popcntOf (Width.ofSel (opWsel op)) a := by
  simp [decode, h]

theorem decode_of_eight_le {op : BitVec 4} (h : 8 ≤ op.toNat) (a : Word) : decode ⟨op, a⟩ = .reserved op a := by
  rcases (eight_le_op_iff op).1 h with h | h <;> simp [decode, h]

/-- R34: `W = 8 << wsel`. -/
theorem Width.bits_ofSel : ∀ wsel : BitVec 2, (Width.ofSel wsel).bits = 8 <<< wsel.toNat := by decide

/-- Settles O1: the decoder's branches, one for each `func`. -/
theorem funcAndWselSelectOperation : Obligations.FuncAndWselSelectOperation :=
  ⟨Width.bits_ofSel, fun op a => ⟨fun h => decode_of_func_00 h a, fun h => decode_of_func_01 h a,
    fun h => decode_of_eight_le ((eight_le_op_iff op).2 h) a⟩⟩

/-! ### Decode after encode -/

/-- The encoder gives each operation an op of its own; a well-formed reserved request keeps its op, which is 8 or more. -/
theorem decode_encode {i : Instr} (h : i.wellFormed = true) : decode (encode i) = i := by
  cases i with
  | brev8 a | brev16 a | brev32 a | brev64 a => exact decode_of_func_00 rfl a
  | popcnt8 a | popcnt16 a | popcnt32 a | popcnt64 a => exact decode_of_func_01 rfl a
  | reserved op a => exact decode_of_eight_le (of_decide_eq_true h) a

/-- Settles O3: the packed word keeps both fields, and decoding them undoes the encoder. -/
theorem decodeOfEncodedRequest : Obligations.DecodeOfEncodedRequest := by
  intro i h
  rw [Request.ofWord_toWord, decode_encode h]

/-! ### Encode after decode -/

/-- The `wsel` of a width (R34). -/
def Width.sel : Width → BitVec 2
  | .w8 => 0b00#2
  | .w16 => 0b01#2
  | .w32 => 0b10#2
  | .w64 => 0b11#2

@[simp] theorem Width.sel_ofSel : ∀ wsel : BitVec 2, (Width.ofSel wsel).sel = wsel := by decide

/-- An op is its two fields, `func` above `wsel` (R32). -/
theorem opFunc_append_opWsel : ∀ op : BitVec 4, opFunc op ++ opWsel op = op := by decide

theorem encode_brevOf (W : Width) (a : Word) : encode (brevOf W a) = ⟨0b00#2 ++ W.sel, a⟩ := by cases W <;> rfl

theorem encode_popcntOf (W : Width) (a : Word) : encode (popcntOf W a) = ⟨0b01#2 ++ W.sel, a⟩ := by cases W <;> rfl

@[simp] theorem brevOf_wellFormed (W : Width) (a : Word) : (brevOf W a).wellFormed = true := by cases W <;> rfl

@[simp] theorem popcntOf_wellFormed (W : Width) (a : Word) : (popcntOf W a).wellFormed = true := by cases W <;> rfl

theorem decode_wellFormed (r : Request) : (decode r).wellFormed = true := by
  obtain ⟨op, a⟩ := r
  rcases opFunc_cases op with h | h | h
  · rw [decode_of_func_00 h, brevOf_wellFormed]
  · rw [decode_of_func_01 h, popcntOf_wellFormed]
  · rw [decode_of_eight_le h]
    exact decide_eq_true h

/-- Encoding a decoded request puts `func` and `wsel` together again. -/
theorem encode_decode (r : Request) : encode (decode r) = r := by
  obtain ⟨op, a⟩ := r
  rcases opFunc_cases op with h | h | h
  · rw [decode_of_func_00 h, encode_brevOf, Width.sel_ofSel, ← h, opFunc_append_opWsel]
  · rw [decode_of_func_01 h, encode_popcntOf, Width.sel_ofSel, ← h, opFunc_append_opWsel]
  · rw [decode_of_eight_le h, encode]

/-- Settles O4: every op decodes to a well-formed request that encodes to it, and packing undoes unpacking. -/
theorem encodeOfDecodedWord : Obligations.EncodeOfDecodedWord := by
  intro w
  refine ⟨decode_wellFormed _, ?_⟩
  rw [encode_decode, Request.toWord_ofWord]

/-- Settles O5: the table's words by evaluation; the request with an operand is what the encoder gives for it. -/
theorem sampleWordsDecode : Obligations.SampleWordsDecode :=
  ⟨by decide, by decide, by decide, by decide, decode_encode (i := .popcnt64 0x0123456789ABCDEF#64) rfl⟩

/-! ### The rows of the opcode table -/

/-- Every well-formed request is encoded in a row of its own name. -/
theorem exists_row_of_wellFormed (i : Instr) : Laws.OpcodeRow.Statement i := by
  cases i with
  | brev8 a => exact Laws.OpcodeRow.brev8 a
  | brev16 a => exact Laws.OpcodeRow.brev16 a
  | brev32 a => exact Laws.OpcodeRow.brev32 a
  | brev64 a => exact Laws.OpcodeRow.brev64 a
  | popcnt8 a => exact Laws.OpcodeRow.popcnt8 a
  | popcnt16 a => exact Laws.OpcodeRow.popcnt16 a
  | popcnt32 a => exact Laws.OpcodeRow.popcnt32 a
  | popcnt64 a => exact Laws.OpcodeRow.popcnt64 a
  | reserved op a => exact Laws.OpcodeRow.reserved op a

/-- Every op is accepted by a row that bears the name of its decoded request. -/
theorem exists_row_of_op (op : BitVec 4) (a : Word) :
    ∃ row ∈ opcodeTable, row.mnemonic = (decode ⟨op, a⟩).mnemonic ∧ row.accepts op = true := by
  simpa [encode_decode] using exists_row_of_wellFormed _ (decode_wellFormed ⟨op, a⟩)

/-- No two rows accept the same op (R39). -/
theorem row_eq_of_accepts : ∀ op : BitVec 4, ∀ row ∈ opcodeTable, ∀ row' ∈ opcodeTable,
    row.accepts op = true → row'.accepts op = true → row = row' := by decide

/-- No two rows bear the same name. -/
theorem opcodeTable_mnemonics_nodup : (opcodeTable.map OpcodeRow.mnemonic).Nodup := by decide

/-- Settles O2: the row of the decoded request's name accepts the op, and a row is determined by its name and by any op it
accepts. -/
theorem eachOpMatchesItsOwnRow : Obligations.EachOpMatchesItsOwnRow := by
  intro op a row hrow
  obtain ⟨own, hown, hname, haccepts⟩ := exists_row_of_op op a
  constructor
  · intro h
    rw [row_eq_of_accepts op row hrow own hown h haccepts, hname]
  · intro h
    rwa [List.inj_on_of_nodup_map opcodeTable_mnemonics_nodup hrow hown (h.trans hname.symm)]

end Sys2Proof
end

section
/-! SUPPORT. The opcode map in the response record and in the assembler's lines, and the operand and result assembly of
R35. -/

namespace Sys2Proof.Machine

@[simp] theorem respOf_brevOf (W : Width) (a : Word) : respOf (brevOf W a) = answer (brev W a) := by cases W <;> rfl

@[simp] theorem respOf_popcntOf (W : Width) (a : Word) : respOf (popcntOf W a) = answer (popcnt W a) := by
  cases W <;> rfl

theorem resp_of_func_00 {op : BitVec 4} (h : opFunc op = 0b00#2) (a : Word) :
    resp true op a = answer (brev (Width.ofSel (opWsel op)) a) := by
  rw [resp, decode_of_func_00 h, respOf_brevOf, if_pos rfl]

theorem resp_of_func_01 {op : BitVec 4} (h : opFunc op = 0b01#2) (a : Word) :
    resp true op a = answer (popcnt (Width.ofSel (opWsel op)) a) := by
  rw [resp, decode_of_func_01 h, respOf_popcntOf, if_pos rfl]

/-- A reserved request is answered without a look at its op or operand (R56). -/
theorem resp_of_eight_le {op : BitVec 4} (h : 8 ≤ op.toNat) (a : Word) : resp true op a = reservedAnswer := by
  rw [resp, decode_of_eight_le h, if_pos rfl, respOf, respReserved]

/-- Settles O29: the record by the op's `func`; without a request it is empty. -/
theorem responseRecordIsOpcodeMap : Obligations.ResponseRecordIsOpcodeMap := by
  intro valid op a
  cases valid with
  | false => rfl
  | true =>
    rw [if_pos rfl]
    split
    next h => exact resp_of_func_00 h a
    next h00 =>
      split
      next h => exact resp_of_func_01 h a
      next h01 => exact resp_of_eight_le (((opFunc_cases op).resolve_left h00).resolve_left h01) a

/-- Settles O6: the line of a request presents its encoding, which decodes to it. -/
theorem assembledLinesPresentTheirCycle : Obligations.AssembledLinesPresentTheirCycle :=
  ⟨fun _ h => ⟨⟨rfl, rfl⟩, rfl, decode_encode h⟩, rfl, rfl, rfl⟩

/-- The operand is the low W bits of the word (R35). -/
theorem operand_congr {W : Width} {a b : Word} (h : ∀ i, i < W.bits → a.getLsbD i = b.getLsbD i) :
    operand W a = operand W b := by
  apply BitVec.eq_of_getLsbD_eq
  intro i hi
  rw [getLsbD_operand, getLsbD_operand, h i hi]

theorem getLsbD_brev_of_ge {W : Width} {i : Nat} (h : W.bits ≤ i) (a : Word) : (brev W a).getLsbD i = false := by
  rw [getLsbD_brev, decide_eq_false (Nat.not_lt.2 h), Bool.false_and]

/-- The count has 7 bits (R47). -/
theorem getLsbD_popcnt_of_ge {i : Nat} (h : 7 ≤ i) (W : Width) (a : Word) : (popcnt W a).getLsbD i = false := by
  rw [popcnt, getLsbD_result, BitVec.getLsbD_of_ge _ _ h, Bool.and_false]

/-- Settles O19: both functions read the operand only, and their results are zero-extended. -/
theorem operandTruncatedResultZeroExtended : Obligations.OperandTruncatedResultZeroExtended := by
  intro W a
  refine ⟨fun b h => ?_, fun i hi => getLsbD_brev_of_ge hi a, fun i hi => getLsbD_popcnt_of_ge hi W a⟩
  rw [brev, brev, popcnt, popcnt, operand_congr h]
  exact ⟨rfl, rfl⟩

end Sys2Proof.Machine
end

section
/-! SUPPORT. The reference algorithm of R41 read bit by bit: a group swap moves bit `i ^^^ g` to bit i, so a run of swaps
moves it by the xor of its granularities, in whatever order they come. -/

namespace Sys2Proof.Machine

/-! ### Moving a bit by one group -/

/-- A bit in an even group has its neighbour g places up. -/
theorem xor_granularity_of_even {W : Width} {g i : Nat} (hg : g ∈ granularities W) (heven : i / g % 2 = 0) :
    i ^^^ g = i + g := by
  have hpos := granularity_pos hg
  obtain ⟨k, rfl, -⟩ := (mem_granularities_iff W g).1 hg
  have hdiv : (i ^^^ 2 ^ k) / 2 ^ k = i / 2 ^ k + 1 := by
    rw [Nat.xor_div_two_pow, Nat.div_self hpos, Nat.xor_one_of_even (Nat.even_iff.2 heven)]
  have hmod : (i ^^^ 2 ^ k) % 2 ^ k = i % 2 ^ k := by
    rw [Nat.xor_mod_two_pow, Nat.mod_self, Nat.xor_zero]
  calc i ^^^ 2 ^ k = 2 ^ k * (i / 2 ^ k + 1) + i % 2 ^ k := by rw [← hdiv, ← hmod, Nat.div_add_mod]
    _ = 2 ^ k * (i / 2 ^ k) + i % 2 ^ k + 2 ^ k := by rw [Nat.mul_succ, Nat.add_right_comm]
    _ = i + 2 ^ k := by rw [Nat.div_add_mod]

/-- A bit in an odd group is the neighbour of one in an even group. -/
theorem xor_granularity_of_odd {W : Width} {g i : Nat} (hg : g ∈ granularities W) (hodd : i / g % 2 = 1) :
    g ≤ i ∧ i ^^^ g = i - g := by
  have hle : g ≤ i := by
    by_contra hlt
    simp [Nat.div_eq_of_lt (Nat.lt_of_not_le hlt)] at hodd
  obtain ⟨j, rfl⟩ := Nat.exists_eq_add_of_le' hle
  have heven := (add_div_mod_two_eq_one_iff (granularity_pos hg) j).1 hodd
  refine ⟨hle, ?_⟩
  rw [← xor_granularity_of_even hg heven, Nat.xor_xor_cancel_right, xor_granularity_of_even hg heven,
    Nat.add_sub_cancel]

theorem xor_granularity_lt_bits {W : Width} {g i : Nat} (hg : g ∈ granularities W) (hi : i < W.bits) :
    i ^^^ g < W.bits := by
  obtain ⟨-, -, hlt⟩ := (mem_granularities_iff W g).1 hg
  rw [Width.bits_eq_two_pow] at hi hlt ⊢
  exact Nat.xor_lt_two_pow hi hlt

/-! ### One step and a run of steps -/

/-- The bits of `LOW(W,g)` moved g places up stay within the width: its last group is odd. -/
theorem lowMask_shiftLeft_eq_highMask {W : Width} {g : Nat} (hg : g ∈ granularities W) :
    lowMask W g <<< g = highMask W g := by
  rw [← lowMask_shiftLeft hg]
  apply BitVec.eq_of_getLsbD_eq
  intro i hi
  suffices h : W.bits ≤ i → (lowMask W g <<< g).getLsbD i = false by
    rcases Nat.lt_or_ge i W.bits with hlt | hge
    · simp [hi, hlt]
    · simp [h hge]
  intro hge
  by_contra hbit
  rw [BitVec.getLsbD_shiftLeft, getLsbD_lowMask W g hg (i - g) (by omega)] at hbit
  obtain ⟨hgi, hj, heven⟩ : g ≤ i ∧ i - g < W.bits ∧ (i - g) / g % 2 = 0 := by simpa [hi] using hbit
  have := (add_granularity_lt_bits_iff hg heven).2 hj
  omega

/-- A swap with the masks applied after the shifts. -/
theorem swapGroups_eq {W : Width} {g : Nat} (hg : g ∈ granularities W) (v : Word) :
    swapGroups W v g = (v <<< g &&& highMask W g) ||| (v >>> g &&& lowMask W g) := by
  rw [swapGroups, BitVec.shiftLeft_and_distrib, BitVec.ushiftRight_and_distrib, lowMask_shiftLeft_eq_highMask hg,
    highMask_shiftRight hg]

/-- Neighbouring groups change places: bit i comes from the bit `i ^^^ g`, g places up if i is in an even group and g
places down if it is in an odd one. -/
theorem getLsbD_swapGroups {W : Width} {g : Nat} (hg : g ∈ granularities W) (v : Word) {i : Nat} (hi : i < 64) :
    (swapGroups W v g).getLsbD i = (decide (i < W.bits) && v.getLsbD (i ^^^ g)) := by
  rw [swapGroups_eq hg, BitVec.getLsbD_or, BitVec.getLsbD_and, BitVec.getLsbD_and, BitVec.getLsbD_shiftLeft,
    BitVec.getLsbD_ushiftRight, getLsbD_highMask W g hg i hi, getLsbD_lowMask W g hg i hi]
  rcases Nat.mod_two_eq_zero_or_one (i / g) with heven | hodd
  · rw [xor_granularity_of_even hg heven, Nat.add_comm g i]
    simp [heven, Bool.and_comm]
  · obtain ⟨hle, hxor⟩ := xor_granularity_of_odd hg hodd
    rw [hxor]
    simp [hodd, hi, Nat.not_lt.2 hle, Bool.and_comm]

/-- How far a run of group swaps moves a bit. -/
def swapOffset (gs : List Nat) : Nat := gs.foldl (· ^^^ ·) 0

theorem swapOffset_concat (gs : List Nat) (g : Nat) : swapOffset (gs ++ [g]) = swapOffset gs ^^^ g :=
  List.foldl_concat ..

theorem swapOffset_perm {gs gs' : List Nat} (h : gs.Perm gs') : swapOffset gs = swapOffset gs' :=
  h.foldl_eq (rcomm := ⟨Nat.xor_right_comm⟩) 0

/-- All the granularities of a width together flip every bit of an index (R19). -/
theorem swapOffset_granularities (W : Width) : swapOffset (granularities W) = W.bits - 1 := by cases W <;> rfl

/-- Flipping every bit of an index counts it from the other end of the word. -/
theorem xor_bits_sub_one {W : Width} {i : Nat} (hi : i < W.bits) : i ^^^ (W.bits - 1) = W.bits - 1 - i := by
  rw [Width.bits_eq_two_pow] at hi ⊢
  apply Nat.eq_of_testBit_eq
  intro k
  rw [Nat.sub_right_comm, Nat.sub_sub, Nat.testBit_two_pow_sub_succ hi, Nat.testBit_xor, Nat.testBit_two_pow_sub_one]
  by_cases hk : k < (granularities W).length
  · simp [hk]
  · simp [hk, Nat.testBit_lt_two_pow (Nat.lt_of_lt_of_le hi (Nat.pow_le_pow_right (by decide) (Nat.le_of_not_lt hk)))]

theorem brevSwarOver_concat (W : Width) (gs : List Nat) (g : Nat) (a : Word) :
    brevSwarOver W (gs ++ [g]) a = swapGroups W (brevSwarOver W gs a) g :=
  List.foldl_concat ..

/-- After any of a width's steps, bit i is the operand's bit `swapOffset` away. -/
theorem getLsbD_brevSwarOver {W : Width} {gs : List Nat} (hgs : gs ⊆ granularities W) (a : Word) {i : Nat}
    (hi : i < 64) :
    (brevSwarOver W gs a).getLsbD i = (decide (i < W.bits) && a.getLsbD (i ^^^ swapOffset gs)) := by
  induction gs using List.reverseRecOn generalizing i with
  | nil =>
    rw [brevSwarOver, List.foldl_nil, getLsbD_result, getLsbD_operand, decide_eq_true hi, Bool.true_and, swapOffset,
      List.foldl_nil, Nat.xor_zero]
  | append_singleton gs g ih =>
    obtain ⟨hgs, hlast⟩ := List.append_subset.1 hgs
    have hg : g ∈ granularities W := hlast (List.mem_singleton_self g)
    rw [brevSwarOver_concat, getLsbD_swapGroups hg _ hi]
    by_cases hiW : i < W.bits
    · have hiW' := xor_granularity_lt_bits hg hiW
      rw [ih hgs (Nat.lt_of_lt_of_le hiW' (Width.bits_le W)), decide_eq_true hiW', Bool.true_and, swapOffset_concat,
        Nat.xor_assoc, Nat.xor_comm g]
    · simp [hiW]

/-- A word without a bit from W up is below `2^W`. -/
theorem toNat_lt_of_getLsbD_of_ge {W : Width} {v : Word} (h : ∀ i, W.bits ≤ i → v.getLsbD i = false) :
    v.toNat < 2 ^ W.bits :=
  Nat.lt_pow_two_of_testBit _ fun i hi => (BitVec.testBit_toNat v).trans (h i hi)

theorem toNat_brevSwarOver_lt {W : Width} {gs : List Nat} (hgs : gs ⊆ granularities W) (a : Word) :
    (brevSwarOver W gs a).toNat < 2 ^ W.bits := by
  apply toNat_lt_of_getLsbD_of_ge
  intro i hi
  by_cases hbus : i < 64
  · rw [getLsbD_brevSwarOver hgs a hbus, decide_eq_false (Nat.not_lt.2 hi), Bool.false_and]
  · exact BitVec.getLsbD_of_ge _ _ (Nat.le_of_not_lt hbus)

/-- Each of a width's steps once, in whatever order, moves bit `W-1-i` to bit i. -/
theorem brevSwarOver_of_perm {W : Width} {gs : List Nat} (h : gs.Perm (granularities W)) (a : Word) :
    brevSwarOver W gs a = brev W a := by
  apply BitVec.eq_of_getLsbD_eq
  intro i hbus
  rw [getLsbD_brevSwarOver h.subset a hbus, getLsbD_brev, swapOffset_perm h, swapOffset_granularities]
  by_cases hi : i < W.bits
  · rw [xor_bits_sub_one hi]
  · simp [hi]

/-- Settles O10: descending and ascending are two orders of the steps, and any of the steps move bits only within the
width. -/
theorem groupSwapComputesReversal : Obligations.GroupSwapComputesReversal := by
  intro W a
  refine ⟨brevSwarOver_of_perm (List.reverse_perm _) a, brevSwarOver_of_perm (.refl _) a,
    (Width.bits_eq_two_pow W).symm, fun gs hgs => toNat_brevSwarOver_lt ?_ a⟩
  exact fun g hg => List.mem_reverse.1 (hgs.subset hg)

/-- Settles O11: the xor of the granularities does not depend on their order. -/
theorem groupSwapOrderDoesNotMatter : Obligations.GroupSwapOrderDoesNotMatter :=
  fun _ _ a h => brevSwarOver_of_perm h a

end Sys2Proof.Machine
end

section
/-! SUPPORT. The laws of bit reversal (R46), from the bits of `BREV_W`. -/

namespace Sys2Proof.Machine

theorem getLsbD_brev_of_lt {W : Width} {i : Nat} (h : i < W.bits) (a : Word) :
    (brev W a).getLsbD i = a.getLsbD (W.bits - 1 - i) := by
  rw [getLsbD_brev, decide_eq_true h, Bool.true_and]

/-- A word is `BREV_W(a)` if it has no bit from W up and the reversed bits below W. -/
theorem eq_brev_iff {W : Width} {v a : Word} : brev W a = v ↔
    (∀ i, i < W.bits → v.getLsbD i = a.getLsbD (W.bits - 1 - i)) ∧ ∀ i, W.bits ≤ i → v.getLsbD i = false := by
  constructor
  · rintro rfl
    exact ⟨fun i hi => getLsbD_brev_of_lt hi a, fun i hi => getLsbD_brev_of_ge hi a⟩
  · rintro ⟨hlt, hge⟩
    apply BitVec.eq_of_getLsbD_eq
    intro i _
    by_cases hi : i < W.bits
    · rw [getLsbD_brev_of_lt hi, hlt i hi]
    · rw [getLsbD_brev_of_ge (by omega), hge i (by omega)]

theorem brev_brev {W : Width} {v : Word} (hv : v.toNat < 2 ^ W.bits) : brev W (brev W v) = v := by
  refine eq_brev_iff.2 ⟨fun i hi => ?_, fun i hi => ?_⟩
  · rw [getLsbD_brev_of_lt (by omega), Nat.sub_sub_self (by omega)]
  · rw [← BitVec.testBit_toNat, Nat.testBit_lt_two_pow (Nat.lt_of_lt_of_le hv (Nat.pow_le_pow_right (by decide) hi))]

theorem brev_zero (W : Width) : brev W 0#64 = 0#64 :=
  eq_brev_iff.2 ⟨by simp, by simp⟩

theorem brev_ones (W : Width) : brev W (ones W.bits) = ones W.bits := by
  have hW := Width.bits_le W
  refine eq_brev_iff.2 ⟨fun i hi => ?_, fun i hi => ?_⟩
  · have hbit : ∀ j, j < W.bits → (ones W.bits).getLsbD j = true := fun j hj => by
      simp only [getLsbD_ones, hj, Nat.lt_of_lt_of_le hj hW, decide_true, Bool.true_and]
    rw [hbit i hi, hbit _ (by omega)]
  · simp [Nat.not_lt.2 hi]

/-- Bit j of `1 << i`. -/
theorem getLsbD_one_shiftLeft {i : Nat} (hi : i < 64) (j : Nat) : (1#64 <<< i).getLsbD j = decide (i = j) := by
  rw [← BitVec.twoPow_eq, BitVec.getLsbD_twoPow, decide_eq_true hi, Bool.true_and]

theorem brev_one_shiftLeft {W : Width} {i : Nat} (hi : i < W.bits) :
    brev W (1#64 <<< i) = 1#64 <<< (W.bits - 1 - i) := by
  have hW := Width.bits_le W
  refine eq_brev_iff.2 ⟨fun j hj => ?_, fun j hj => ?_⟩
  · rw [getLsbD_one_shiftLeft (by omega), getLsbD_one_shiftLeft (by omega), decide_eq_decide]
    omega
  · rw [getLsbD_one_shiftLeft (by omega), decide_eq_false (by omega)]

/-- Counting a word's bits from its other end counts the same bits. -/
theorem countP_range_sub (n : Nat) (f : Nat → Bool) :
    ((List.range n).countP fun i => f (n - 1 - i)) = (List.range n).countP f := by
  have hrev : (List.range n).reverse = (List.range n).map (n - 1 - ·) := by
    rw [List.range_eq_range', List.reverse_range', ← List.range_eq_range', Nat.zero_add]
  rw [← List.countP_reverse (p := f), hrev, List.countP_map]
  rfl

/-- The count of a word without a bit from `n` up ends at `n`. -/
theorem fieldCount_of_ge {v : Word} {n m : Nat} (hnm : n ≤ m) (h : ∀ i, n ≤ i → v.getLsbD i = false) :
    fieldCount v 0 m = fieldCount v 0 n := by
  obtain ⟨k, rfl⟩ := Nat.exists_eq_add_of_le hnm
  have hzero : ((List.range k).map (n + ·)).countP (fun i => v.getLsbD (0 + i)) = 0 := by
    rw [List.countP_eq_zero]
    simp [h]
  rw [fieldCount, List.range_add, List.countP_append, hzero, Nat.add_zero, fieldCount]

/-- Reversal keeps the population count. -/
theorem fieldCount_brev (W : Width) (a : Word) : fieldCount (brev W a) 0 W.bits = fieldCount a 0 W.bits := by
  simp only [fieldCount, Nat.zero_add]
  rw [← countP_range_sub W.bits a.getLsbD]
  exact List.countP_congr fun i hi => by rw [getLsbD_brev_of_lt (List.mem_range.1 hi)]

/-- The W-bit reversal is the upper W bits of the 64-bit one. -/
theorem brev_eq_brev64_shiftRight (W : Width) (a : Word) :
    brev W a = brev .w64 (a &&& ones W.bits) >>> (64 - W.bits) := by
  have hW := Width.bits_le W
  refine eq_brev_iff.2 ⟨fun i hi => ?_, fun i hi => ?_⟩
  · rw [BitVec.getLsbD_ushiftRight, getLsbD_brev_of_lt (by rw [Width.bits_w64]; omega), BitVec.getLsbD_and,
      getLsbD_ones, Width.bits_w64, show 64 - 1 - (64 - W.bits + i) = W.bits - 1 - i by omega,
      decide_eq_true (by omega), decide_eq_true (by omega), Bool.and_true, Bool.and_true]
  · rw [BitVec.getLsbD_ushiftRight, getLsbD_brev_of_ge (by rw [Width.bits_w64]; omega)]

/-- Settles O15: each law is read off the bits of `BREV_W`. -/
theorem reversalLaws : Obligations.ReversalLaws := fun W =>
  ⟨fun _ => brev_brev, brev_zero W, brev_ones W, fun _ => brev_one_shiftLeft,
    fun a => (fieldCount_of_ge (Width.bits_le W) fun _ hi => getLsbD_brev_of_ge hi a).trans (fieldCount_brev W a),
    brev_eq_brev64_shiftRight W⟩

end Sys2Proof.Machine
end

section
/-! SUPPORT. The statements of R42 to R45: what each bit reversal's request does, and its result. -/

namespace Sys2Proof.Machine

/-- In a serving block a bit reversal completes by one edge that takes its result, flag 0 (R64, R65). -/
theorem exec_brevOf_completes (W : Width) (a : Word) {s : State} (hs : s.serving) :
    ∃ t, exec (brevOf W a) s = .next t ∧ EdgeTakes s ⟨true, brev W a, false⟩ t :=
  ⟨_, exec_eq _ s, respOf_brevOf W a ▸ edgeTakes_clockEdge hs _⟩

/-- Settles O20: the case W = 8; the corner cases by evaluation. -/
theorem brev8ReversesLow8Bits : Obligations.Brev8ReversesLow8Bits := fun a _ =>
  ⟨decode_of_func_00 rfl a, exec_brevOf_completes .w8 a, fun _ h => getLsbD_brev_of_lt (W := .w8) h a,
    fun _ h => getLsbD_brev_of_ge (W := .w8) h a, brev_zero .w8, brev_ones .w8,
    by decide, by decide, by decide, by decide, by decide⟩

/-- Settles O21: the case W = 16; the corner cases by evaluation. -/
theorem brev16ReversesLow16Bits : Obligations.Brev16ReversesLow16Bits := fun a _ =>
  ⟨decode_of_func_00 rfl a, exec_brevOf_completes .w16 a, fun _ h => getLsbD_brev_of_lt (W := .w16) h a,
    fun _ h => getLsbD_brev_of_ge (W := .w16) h a, brev_zero .w16, brev_ones .w16,
    by decide, by decide, by decide, by decide, by decide⟩

/-- Settles O22: the case W = 32; the corner cases by evaluation. -/
theorem brev32ReversesLow32Bits : Obligations.Brev32ReversesLow32Bits := fun a _ =>
  ⟨decode_of_func_00 rfl a, exec_brevOf_completes .w32 a, fun _ h => getLsbD_brev_of_lt (W := .w32) h a,
    fun _ h => getLsbD_brev_of_ge (W := .w32) h a, brev_zero .w32, brev_ones .w32,
    by decide, by decide, by decide, by decide⟩

/-- Settles O23: the case W = 64; the corner cases by evaluation. -/
theorem brev64ReversesAllBits : Obligations.Brev64ReversesAllBits := fun a _ =>
  ⟨decode_of_func_00 rfl a, exec_brevOf_completes .w64 a, fun _ h => getLsbD_brev_of_lt (W := .w64) h a,
    brev_zero .w64, brev_ones .w64, by decide, by decide, by decide⟩

end Sys2Proof.Machine
end

section
/-! SUPPORT. The 1 bits of a bit field (R8): the count of a field in parts, shifted, and under a mask; and `POPCNT_W` as the
count of the low W bits (R47). -/

namespace Sys2Proof.Machine

theorem fieldCount_congr {v w : Word} {lo lo' n : Nat} (h : ∀ i, i < n → v.getLsbD (lo + i) = w.getLsbD (lo' + i)) :
    fieldCount v lo n = fieldCount w lo' n :=
  List.countP_congr fun i hi => by rw [h i (List.mem_range.1 hi)]

/-- The count of a field is that of its lower and its upper part. -/
theorem fieldCount_add (v : Word) (lo m n : Nat) :
    fieldCount v lo (m + n) = fieldCount v lo m + fieldCount v (lo + m) n := by
  simp only [fieldCount, List.range_add, List.countP_append, List.countP_map, Function.comp_def, Nat.add_assoc]

theorem fieldCount_one (v : Word) (lo : Nat) : fieldCount v lo 1 = (v.getLsbD lo).toNat := by
  cases h : v.getLsbD lo <;> simp [fieldCount, h]

theorem fieldCount_ushiftRight (v : Word) (k lo n : Nat) : fieldCount (v >>> k) lo n = fieldCount v (k + lo) n :=
  fieldCount_congr fun i _ => by rw [BitVec.getLsbD_ushiftRight, Nat.add_assoc]

theorem fieldCount_le (v : Word) (lo n : Nat) : fieldCount v lo n ≤ n := by
  have h := List.countP_le_length (l := List.range n) (p := fun i => v.getLsbD (lo + i))
  rwa [List.length_range] at h

/-- A field of n bits holds n ones exactly when it holds no zero. -/
theorem fieldCount_eq_iff {v : Word} {lo n : Nat} :
    fieldCount v lo n = n ↔ ∀ i, i < n → v.getLsbD (lo + i) = true := by
  have h := List.countP_eq_length (l := List.range n) (p := fun i => v.getLsbD (lo + i))
  simpa only [List.length_range, List.mem_range, fieldCount] using h

theorem fieldCount_eq_zero_iff {v : Word} {lo n : Nat} :
    fieldCount v lo n = 0 ↔ ∀ i, i < n → v.getLsbD (lo + i) = false := by
  simp [fieldCount, List.countP_eq_zero]

/-- The ones of a field are those under one mask and those under another, if each is in just one of the masks. -/
theorem fieldCount_eq_add_of_masks {v m₁ m₂ : Word} {lo n : Nat}
    (h : ∀ i, i < n → v.getLsbD (lo + i) = true → m₂.getLsbD (lo + i) = !m₁.getLsbD (lo + i)) :
    fieldCount v lo n = fieldCount (v &&& m₁) lo n + fieldCount (v &&& m₂) lo n := by
  simp only [fieldCount, BitVec.getLsbD_and]
  rw [List.countP_eq_countP_filter_add _ _ fun i => m₁.getLsbD (lo + i), List.countP_filter, List.countP_filter]
  congr 1
  refine List.countP_congr fun i hi => ?_
  cases hv : v.getLsbD (lo + i)
  · simp
  · rw [h i (List.mem_range.1 hi) hv]

theorem toNat_popcnt_eq_fieldCount (W : Width) (a : Word) : (popcnt W a).toNat = fieldCount a 0 W.bits := by
  simp only [toNat_popcnt, fieldCount, Nat.zero_add]

/-- R47: the result is in [0, W]. -/
theorem toNat_popcnt_le (W : Width) (a : Word) : (popcnt W a).toNat ≤ W.bits :=
  toNat_popcnt_eq_fieldCount W a ▸ fieldCount_le a 0 W.bits

end Sys2Proof.Machine
end

section
/-! SUPPORT. The laws of population count (R54), from the count of the low W bits. -/

namespace Sys2Proof.Machine

/-- Each round of the test-and-shift method counts bit 0 and moves the field one down. -/
theorem shiftCount_eq_fieldCount (n : Nat) (v : Word) : shiftCount n v = fieldCount v 0 n := by
  induction n generalizing v with
  | zero => rfl
  | succ n ih =>
    have hbit : (v &&& 1#64).toNat = (v.getLsbD 0).toNat := by
      rw [BitVec.toNat_and, BitVec.toNat_ofNat, ← BitVec.testBit_toNat, Nat.testBit_zero]
      rcases Nat.mod_two_eq_zero_or_one v.toNat with h | h <;> simp [h]
    rw [shiftCount, ih, hbit, fieldCount_ushiftRight, Nat.add_comm n 1, fieldCount_add, fieldCount_one]

theorem popcnt_zero (W : Width) : popcnt W 0#64 = 0#64 := by
  apply BitVec.eq_of_toNat_eq
  rw [toNat_popcnt_eq_fieldCount, fieldCount_eq_zero_iff.2 (by simp)]
  rfl

/-- The low W bits of a word are all ones exactly when none of them is zero. -/
theorem and_ones_eq_ones_iff (W : Width) (a : Word) :
    a &&& ones W.bits = ones W.bits ↔ ∀ i, i < W.bits → a.getLsbD i = true := by
  have hW := Width.bits_le W
  constructor
  · intro h i hi
    have hbit := congrArg (·.getLsbD i) h
    simpa [hi, show i < 64 by omega] using hbit
  · intro h
    apply BitVec.eq_of_getLsbD_eq
    intro i _
    by_cases hi : i < W.bits
    · simp [h i hi]
    · simp [hi]

theorem toNat_popcnt_eq_bits_iff (W : Width) (a : Word) :
    (popcnt W a).toNat = W.bits ↔ a &&& ones W.bits = ones W.bits := by
  rw [toNat_popcnt_eq_fieldCount, fieldCount_eq_iff, and_ones_eq_ones_iff]
  simp only [Nat.zero_add]

/-- Settles O16: test-and-shift counts the same field, and a field is full exactly when all its bits are ones. -/
theorem popcountCorrectAndBounded : Obligations.PopcountCorrectAndBounded := fun W =>
  ⟨fun a => (toNat_popcnt_eq_fieldCount W a).trans (shiftCount_eq_fieldCount W.bits a).symm, popcnt_zero W,
    (toNat_popcnt_eq_bits_iff W _).2 BitVec.and_self,
    fun a => ⟨toNat_popcnt_le W a, toNat_popcnt_eq_bits_iff W a⟩⟩

/-! ### Additivity and reversal -/

/-- The counts under two masks add up if each of the ones below W is in just one of the masks; no sum of counts wraps. -/
theorem popcnt_eq_add_of_masks {W : Width} {v m₁ m₂ : Word}
    (h : ∀ i, i < W.bits → v.getLsbD i = true → m₂.getLsbD i = !m₁.getLsbD i) :
    popcnt W v = popcnt W (v &&& m₁) + popcnt W (v &&& m₂) := by
  have hsum := fieldCount_eq_add_of_masks (v := v) (m₁ := m₁) (m₂ := m₂) (lo := 0) (n := W.bits)
    (by simpa only [Nat.zero_add] using h)
  simp only [← toNat_popcnt_eq_fieldCount] at hsum
  have hle := toNat_popcnt_le W v
  have hW := Width.bits_le W
  apply BitVec.eq_of_toNat_eq
  rw [BitVec.toNat_add, ← hsum, Nat.mod_eq_of_lt (by omega)]

/-- Of two disjoint masks that cover a word's ones, just one has a given 1 bit. -/
theorem getLsbD_eq_not_of_disjoint_cover {v m₁ m₂ : Word} (hdisj : m₁ &&& m₂ = 0#64) (hcover : v &&& (m₁ ||| m₂) = v)
    {i : Nat} (hv : v.getLsbD i = true) : m₂.getLsbD i = !m₁.getLsbD i := by
  have hd : (m₁.getLsbD i && m₂.getLsbD i) = false := by
    rw [← BitVec.getLsbD_and, hdisj, BitVec.getLsbD_zero]
  have hc : (v.getLsbD i && (m₁.getLsbD i || m₂.getLsbD i)) = true := by
    rw [← BitVec.getLsbD_or, ← BitVec.getLsbD_and, hcover, hv]
  cases h : m₁.getLsbD i
  · simpa [h, hv] using hc
  · simpa [h] using hd

/-- Settles O17: two disjoint covering masks, and the two masks of a table entry, split the ones of the low W bits; a
reversal keeps their number. -/
theorem popcountAdditive : Obligations.PopcountAdditive := by
  refine fun W => ⟨fun v m₁ m₂ hdisj hcover => ?_, fun a g hg => ?_, fun a => ?_⟩
  · exact (popcnt_eq_add_of_masks fun i _ => getLsbD_eq_not_of_disjoint_cover hdisj hcover).symm
  · refine popcnt_eq_add_of_masks fun i hi _ => ?_
    rw [getLsbD_highMask_eq_not hg (Nat.lt_of_lt_of_le hi (Width.bits_le W)), decide_eq_true hi, Bool.true_and]
  · apply BitVec.eq_of_toNat_eq
    rw [toNat_popcnt_eq_fieldCount, toNat_popcnt_eq_fieldCount, fieldCount_brev]

/-! ### Clearing the lowest set bit -/

@[simp] theorem clearLowest_zero : clearLowest 0#64 = 0#64 := BitVec.zero_and

/-- Subtracting 1 from a number whose lowest 1 bit is bit k changes that bit and the zeros below it: the number and its
predecessor share the bits other than k. -/
theorem testBit_and_pred (k m i : Nat) :
    ((2 ^ k * (2 * m + 1)).testBit i && (2 ^ k * (2 * m + 1) - 1).testBit i) =
      ((2 ^ k * (2 * m + 1)).testBit i && decide (i ≠ k)) := by
  have hpos := Nat.two_pow_pos k
  have hpred : 2 ^ k * (2 * m + 1) - 1 = 2 ^ k * (2 * m) + (2 ^ k - 1) := by
    rw [Nat.mul_add_one]
    omega
  rw [hpred, Nat.testBit_two_pow_mul, Nat.testBit_two_pow_mul_add _ (Nat.sub_one_lt hpos.ne')]
  rcases Nat.lt_trichotomy i k with h | rfl | h
  · simp [Nat.not_le.2 h]
  · simp
  · obtain ⟨d, rfl⟩ : ∃ d, i = k + (d + 1) := ⟨i - k - 1, by omega⟩
    have hhalf : (2 * m + 1) / 2 = m := by omega
    simp [Nat.testBit_succ, hhalf]

/-- A word that is not 0 has a lowest 1 bit, and `v & (v - 1)` clears it. -/
theorem exists_clearLowest_eq {v : Word} (hv : v ≠ 0#64) :
    ∃ k, v.getLsbD k = true ∧ clearLowest v = v &&& ~~~(1#64 <<< k) := by
  have hpos : 0 < v.toNat := Nat.pos_of_ne_zero fun h => hv (BitVec.eq_of_toNat_eq h)
  have hpred : (v - 1#64).toNat = v.toNat - 1 := BitVec.toNat_sub_of_le (BitVec.le_def.2 hpos)
  obtain ⟨k, _, ⟨m, rfl⟩, hval⟩ := Nat.exists_eq_two_pow_mul_odd hpos.ne'
  have hk : v.getLsbD k = true := by
    rw [← BitVec.testBit_toNat, hval, Nat.testBit_two_pow_mul]
    simp
  refine ⟨k, hk, BitVec.eq_of_getLsbD_eq fun i hi => ?_⟩
  rw [clearLowest, BitVec.getLsbD_and, BitVec.getLsbD_and, BitVec.getLsbD_not,
    getLsbD_one_shiftLeft (BitVec.lt_of_getLsbD hk), ← BitVec.testBit_toNat, ← BitVec.testBit_toNat, hpred, hval,
    testBit_and_pred]
  simp [hi, eq_comm]

theorem fieldCount_one_shiftLeft {k : Nat} (hk : k < 64) : fieldCount (1#64 <<< k) 0 64 = 1 := by
  simp only [fieldCount, Nat.zero_add, getLsbD_one_shiftLeft hk]
  calc (List.range 64).countP (fun i => decide (k = i)) = (List.range 64).count k :=
        List.countP_congr fun i _ => by rw [decide_eq_true_iff, beq_iff_eq, eq_comm]
    _ = 1 := by rw [List.count_range, if_pos hk]

/-- Clearing the lowest 1 bit takes one from the count. -/
theorem fieldCount_clearLowest {v : Word} (hv : v ≠ 0#64) :
    fieldCount v 0 64 = fieldCount (clearLowest v) 0 64 + 1 := by
  obtain ⟨k, hk, hclear⟩ := exists_clearLowest_eq hv
  have hk64 : k < 64 := BitVec.lt_of_getLsbD hk
  have hmask : v &&& 1#64 <<< k = 1#64 <<< k := by
    apply BitVec.eq_of_getLsbD_eq
    intro i _
    rw [BitVec.getLsbD_and, getLsbD_one_shiftLeft hk64]
    by_cases h : k = i
    · simp [← h, hk]
    · simp [h]
  rw [fieldCount_eq_add_of_masks (m₁ := 1#64 <<< k) (m₂ := ~~~(1#64 <<< k)) fun i hi _ => by simp [hi], ← hclear,
    hmask, fieldCount_one_shiftLeft hk64, Nat.add_comm]

theorem fieldCount_bus_eq_zero_iff (v : Word) : fieldCount v 0 64 = 0 ↔ v = 0#64 := by
  rw [fieldCount_eq_zero_iff]
  constructor
  · intro h
    exact BitVec.eq_of_getLsbD_eq fun i hi => by simpa using h i hi
  · rintro rfl
    simp

theorem iterate_clearLowest_eq_zero_iff (n : Nat) (v : Word) : clearLowest^[n] v = 0#64 ↔ fieldCount v 0 64 ≤ n := by
  induction n generalizing v with
  | zero => rw [Function.iterate_zero_apply, Nat.le_zero, fieldCount_bus_eq_zero_iff]
  | succ n ih =>
    rw [Function.iterate_succ_apply, ih]
    by_cases hv : v = 0#64
    · have hzero := (fieldCount_bus_eq_zero_iff v).2 hv
      rw [hv, clearLowest_zero, ← hv]
      omega
    · rw [fieldCount_clearLowest hv]
      omega

/-- A word below `2^W` has no bit from W up. -/
theorem getLsbD_of_toNat_lt {W : Width} {v : Word} (hv : v.toNat < 2 ^ W.bits) {i : Nat} (hi : W.bits ≤ i) :
    v.getLsbD i = false := by
  rw [← BitVec.testBit_toNat, Nat.testBit_lt_two_pow (Nat.lt_of_lt_of_le hv (Nat.pow_le_pow_right (by decide) hi))]

/-- Settles O18: each application takes one from the count until it is 0, and a W-bit value has no ones beyond W. -/
theorem clearLowestReachesZeroAtPopcount : Obligations.ClearLowestReachesZeroAtPopcount := by
  intro W v hv n
  rw [iterate_clearLowest_eq_zero_iff, fieldCount_of_ge (Width.bits_le W) fun _ hi => getLsbD_of_toNat_lt hv hi,
    toNat_popcnt_eq_fieldCount]

end Sys2Proof.Machine
end

section
/-! SUPPORT. The parallel sum of R48 read field by field: the masks cut a word into fields of 2g bits, the two addends of a
step hold the counts of a field's two halves, and no field's sum carries into the next one (R49). -/

namespace Sys2Proof.Machine

/-! ### Bit fields of a number, and addition without a carry between them -/

/-- The bits lo, ..., lo + n - 1 of a number, as a number. -/
def bitField (x lo n : Nat) : Nat := x / 2 ^ lo % 2 ^ n

theorem testBit_bitField (x lo n i : Nat) : (bitField x lo n).testBit i = (decide (i < n) && x.testBit (lo + i)) := by
  rw [bitField, Nat.testBit_mod_two_pow, Nat.testBit_div_two_pow, Nat.add_comm]

theorem bitField_ushiftRight (v : Word) (k lo n : Nat) :
    bitField (v >>> k).toNat lo n = bitField v.toNat (k + lo) n := by
  rw [bitField, bitField, BitVec.toNat_ushiftRight, Nat.shiftRight_eq_div_pow, Nat.div_div_eq_div_mul, Nat.pow_add]

/-- If each sum of the low m fields of two numbers fits its field, the low parts of the numbers add up without a carry out of
them. -/
theorem low_fields_add_lt {x y n m : Nat}
    (h : ∀ j, j < m → bitField x (n * j) n + bitField y (n * j) n < 2 ^ n) :
    x % 2 ^ (n * m) + y % 2 ^ (n * m) < 2 ^ (n * m) := by
  induction m with
  | zero => simp [Nat.mod_one]
  | succ m ih =>
    have hlow := ih fun j hj => h j (Nat.lt_succ_of_lt hj)
    have htop := Nat.mul_le_mul_left (2 ^ (n * m)) (h m (Nat.lt_succ_self m))
    simp only [bitField, Nat.mul_succ, Nat.mul_add] at htop
    rw [Nat.mul_succ, Nat.pow_add, Nat.mod_mul, Nat.mod_mul]
    omega

/-- If the sums of the fields up to field j fit their fields, field j of a sum is the sum of the fields j. -/
theorem bitField_add {x y n j : Nat}
    (h : ∀ i, i ≤ j → bitField x (n * i) n + bitField y (n * i) n < 2 ^ n) :
    bitField (x + y) (n * j) n = bitField x (n * j) n + bitField y (n * j) n := by
  have hcarry := low_fields_add_lt fun i hi => h i (Nat.le_of_lt hi)
  rw [bitField, Nat.add_div_eq_of_add_mod_lt hcarry, Nat.add_mod_of_add_mod_lt (h j le_rfl), bitField, bitField]

/-! ### The fields of 2g bits of a width -/

theorem mul_div_two_mul_granularity {W : Width} {g : Nat} (hg : g ∈ granularities W) :
    2 * g * (W.bits / (2 * g)) = W.bits := by
  obtain ⟨m, hm⟩ := exists_bits_eq_pairs hg
  exact Nat.mul_div_cancel' ⟨m, by rw [hm, Nat.mul_right_comm]⟩

/-- Field j of 2g bits is made of the fields 2j and 2j + 1 of g bits. -/
theorem half_fields_lt {n g j : Nat} (hj : j < n / (2 * g)) : 2 * j < n / g ∧ 2 * j + 1 < n / g := by
  rw [Nat.mul_comm, ← Nat.div_div_eq_div_mul] at hj
  omega

/-- `LOW(W,g)` has the low g bits of each field of 2g bits (R19). -/
theorem getLsbD_lowMask_field {W : Width} {g j i : Nat} (hg : g ∈ granularities W) (hj : j < W.bits / (2 * g))
    (hi : i < 2 * g) : (lowMask W g).getLsbD (2 * g * j + i) = decide (i < g) := by
  have hpos := granularity_pos hg
  have hfield : 2 * g * (j + 1) ≤ W.bits := mul_div_two_mul_granularity hg ▸ Nat.mul_le_mul_left _ hj
  rw [Nat.mul_succ] at hfield
  have hW := Width.bits_le W
  have hgroup : (2 * g * j + i) / g = 2 * j + i / g := by
    rw [Nat.mul_right_comm, Nat.mul_comm _ g, Nat.mul_add_div hpos]
  have heven : (2 * j + i / g) % 2 = 0 ↔ i < g := by
    have hlt : i / g < 2 := Nat.div_lt_of_lt_mul (Nat.mul_comm 2 g ▸ hi)
    rw [Nat.mul_add_mod, Nat.mod_eq_of_lt hlt, Nat.div_eq_zero_iff_lt hpos]
  rw [getLsbD_lowMask W g hg _ (by omega), hgroup, decide_eq_true (show 2 * g * j + i < W.bits by omega),
    Bool.true_and, decide_eq_decide]
  exact heven

/-- Masking with `LOW(W,g)` leaves, of each field of 2g bits, its low half. -/
theorem bitField_and_lowMask {W : Width} {g j : Nat} (hg : g ∈ granularities W) (hj : j < W.bits / (2 * g)) (v : Word) :
    bitField (v &&& lowMask W g).toNat (2 * g * j) (2 * g) = bitField v.toNat (2 * g * j) g := by
  apply Nat.eq_of_testBit_eq
  intro i
  rw [testBit_bitField, testBit_bitField, BitVec.testBit_toNat, BitVec.testBit_toNat, BitVec.getLsbD_and]
  by_cases hi : i < 2 * g
  · rw [getLsbD_lowMask_field hg hj hi, decide_eq_true hi, Bool.true_and, Bool.and_comm]
  · rw [decide_eq_false hi, decide_eq_false (by omega), Bool.false_and, Bool.false_and]

theorem toNat_and_lowMask_lt {W : Width} {g : Nat} (hg : g ∈ granularities W) (v : Word) :
    (v &&& lowMask W g).toNat < 2 ^ W.bits := by
  apply toNat_lt_of_getLsbD_of_ge
  intro i hi
  by_cases hbus : i < 64
  · rw [BitVec.getLsbD_and, getLsbD_lowMask W g hg i hbus, decide_eq_false (Nat.not_lt.2 hi), Bool.false_and,
      Bool.and_false]
  · exact BitVec.getLsbD_of_ge _ _ (Nat.le_of_not_lt hbus)

/-! ### One step -/

/-- R22: the mask of the second addend is `LOW(W,g)`. -/
theorem addGroups_eq {W : Width} {g : Nat} (hg : g ∈ granularities W) (v : Word) :
    addGroups W v g = (v &&& lowMask W g) + ((v >>> g) &&& lowMask W g) := by
  rw [addGroups, highMask_shiftRight hg]

/-- R22: the second addend is the HIGH-masked half, shifted down. -/
theorem addGroups_eq_shifted_high {W : Width} {g : Nat} (hg : g ∈ granularities W) (v : Word) :
    addGroups W v g = (v &&& lowMask W g) + ((v &&& highMask W g) >>> g) := by
  rw [addGroups_eq hg, BitVec.ushiftRight_and_distrib, highMask_shiftRight hg]

/-- R49: `v` is a W-bit value whose fields of n bits hold the counts of the same bits of `a`. -/
structure HoldsFieldCounts (W : Width) (n : Nat) (a v : Word) : Prop where
  lt : v.toNat < 2 ^ W.bits
  field_eq : ∀ j, j < W.bits / n → bitField v.toNat (n * j) n = fieldCount a (n * j) n

/-- A single bit is its own count. -/
theorem holdsFieldCounts_operand (W : Width) (a : Word) : HoldsFieldCounts W 1 a (result (operand W a)) where
  lt := toNat_lt_of_getLsbD_of_ge fun i hi => by
    rw [getLsbD_result, getLsbD_operand, decide_eq_false (Nat.not_lt.2 hi), Bool.false_and, Bool.and_false]
  field_eq j hj := by
    have hW := Width.bits_le W
    rw [Nat.div_one] at hj
    rw [Nat.one_mul, fieldCount_one, bitField, Nat.pow_one, ← Nat.toNat_testBit, BitVec.testBit_toNat, getLsbD_result,
      getLsbD_operand, decide_eq_true hj, decide_eq_true (by omega), Bool.true_and, Bool.true_and]

section
variable {W : Width} {g : Nat} {a v : Word} (hg : g ∈ granularities W) (hv : HoldsFieldCounts W g a v)
include hg hv

/-- The first addend holds the count of each field's low half. -/
theorem bitField_low_addend {j : Nat} (hj : j < W.bits / (2 * g)) :
    bitField (v &&& lowMask W g).toNat (2 * g * j) (2 * g) = fieldCount a (2 * g * j) g := by
  have hhalf : 2 * g * j = g * (2 * j) := by rw [Nat.mul_comm 2 g, Nat.mul_assoc]
  rw [bitField_and_lowMask hg hj, hhalf, hv.field_eq _ (half_fields_lt hj).1]

/-- The second addend holds the count of each field's high half. -/
theorem bitField_high_addend {j : Nat} (hj : j < W.bits / (2 * g)) :
    bitField ((v >>> g) &&& lowMask W g).toNat (2 * g * j) (2 * g) = fieldCount a (2 * g * j + g) g := by
  have hhalf : 2 * g * j + g = g * (2 * j + 1) := by rw [Nat.mul_comm 2 g, Nat.mul_assoc, Nat.mul_succ]
  rw [bitField_and_lowMask hg hj, bitField_ushiftRight, Nat.add_comm, hhalf, hv.field_eq _ (half_fields_lt hj).2]

/-- Each field's sum is the count of the field: a number at most 2g, which the field's 2g bits hold. -/
theorem addends_field_lt {j : Nat} (hj : j < W.bits / (2 * g)) :
    bitField (v &&& lowMask W g).toNat (2 * g * j) (2 * g) +
      bitField ((v >>> g) &&& lowMask W g).toNat (2 * g * j) (2 * g) < 2 ^ (2 * g) := by
  rw [bitField_low_addend hg hv hj, bitField_high_addend hg hv hj, ← fieldCount_add, ← Nat.two_mul]
  exact Nat.lt_of_le_of_lt (fieldCount_le ..) (Nat.lt_pow_self (by decide))

/-- The sum of a step stays below `2^W`. -/
theorem addends_add_lt :
    (v &&& lowMask W g).toNat + ((v >>> g) &&& lowMask W g).toNat < 2 ^ W.bits := by
  have h := low_fields_add_lt fun j hj => addends_field_lt hg hv (j := j) hj
  rwa [mul_div_two_mul_granularity hg, Nat.mod_eq_of_lt (toNat_and_lowMask_lt hg _),
    Nat.mod_eq_of_lt (toNat_and_lowMask_lt hg _)] at h

/-- The 64-bit addition of a step does not wrap. -/
theorem toNat_addGroups :
    (addGroups W v g).toNat = (v &&& lowMask W g).toNat + ((v >>> g) &&& lowMask W g).toNat := by
  rw [addGroups_eq hg, BitVec.toNat_add, Nat.mod_eq_of_lt (Nat.lt_of_lt_of_le (addends_add_lt hg hv)
    (Nat.pow_le_pow_right (by decide) (Width.bits_le W)))]

/-- A step joins the counts of neighbouring fields of g bits into those of the fields of 2g bits. -/
theorem holdsFieldCounts_addGroups : HoldsFieldCounts W (2 * g) a (addGroups W v g) where
  lt := toNat_addGroups hg hv ▸ addends_add_lt hg hv
  field_eq j hj := by
    rw [toNat_addGroups hg hv, bitField_add fun i hi => addends_field_lt hg hv (Nat.lt_of_le_of_lt hi hj),
      bitField_low_addend hg hv hj, bitField_high_addend hg hv hj, ← fieldCount_add, ← Nat.two_mul]

end

/-! ### A run of steps -/

theorem popcntSwarOver_concat (W : Width) (gs : List Nat) (g : Nat) (a : Word) :
    popcntSwarOver W (gs ++ [g]) a = addGroups W (popcntSwarOver W gs a) g :=
  List.foldl_concat ..

/-- The step after k steps has granularity `2^k`. -/
theorem step_granularity {W : Width} {gs : List Nat} {g : Nat} (h : gs ++ [g] <+: granularities W) :
    g = 2 ^ gs.length := by
  obtain ⟨rest, hrest⟩ := h
  have hget : (granularities W)[gs.length]? = some g := by simp [← hrest]
  rw [granularities_eq, List.getElem?_map, Option.map_eq_some_iff] at hget
  obtain ⟨k, hk, rfl⟩ := hget
  obtain ⟨-, rfl⟩ := List.getElem?_eq_some_iff.1 hk
  rw [List.getElem_range]

theorem mem_granularities_of_prefix {W : Width} {gs : List Nat} {g : Nat} (h : gs ++ [g] <+: granularities W) :
    g ∈ granularities W := h.subset (by simp)

/-- R49: after k steps the fields of `2^k` bits hold their counts. -/
theorem holdsFieldCounts_popcntSwarOver {W : Width} {gs : List Nat} (h : gs <+: granularities W) (a : Word) :
    HoldsFieldCounts W (2 ^ gs.length) a (popcntSwarOver W gs a) := by
  induction gs using List.reverseRecOn with
  | nil => exact holdsFieldCounts_operand W a
  | append_singleton gs g ih =>
    have hfields := ih ((List.prefix_append gs [g]).trans h)
    rw [← step_granularity h] at hfields
    rw [popcntSwarOver_concat, List.length_append, List.length_singleton, Nat.pow_succ, ← step_granularity h,
      Nat.mul_comm]
    exact holdsFieldCounts_addGroups (mem_granularities_of_prefix h) hfields

/-- Settles O12: after all the steps one field is left, of W bits, and it holds the count of the whole operand. -/
theorem parallelSumComputesPopcount : Obligations.ParallelSumComputesPopcount := by
  intro W a
  have hall := holdsFieldCounts_popcntSwarOver (List.prefix_refl (granularities W)) a
  rw [← Width.bits_eq_two_pow] at hall
  have hpos : 0 < W.bits := Width.bits_eq_two_pow W ▸ Nat.two_pow_pos _
  have hfield := hall.field_eq 0 (Nat.div_self hpos ▸ Nat.one_pos)
  rw [Nat.mul_zero, bitField, Nat.pow_zero, Nat.div_one, Nat.mod_eq_of_lt hall.lt] at hfield
  apply BitVec.eq_of_toNat_eq
  rw [popcntSwar, hfield, toNat_popcnt_eq_fieldCount]

/-- Settles O13: two of the identities of R22, and the rule's example by evaluation. -/
theorem parallelSumStepForms : Obligations.ParallelSumStepForms :=
  ⟨fun _ _ v hg _ => ⟨addGroups_eq hg v, addGroups_eq_shifted_high hg v⟩, by decide, by decide⟩

/-- Settles O14: the steps before g leave the counts of the fields of g bits, and the step for g adds them in pairs. -/
theorem parallelSumFieldBound : Obligations.ParallelSumFieldBound := by
  intro W gs g a h
  have hg := mem_granularities_of_prefix h
  have hbefore := holdsFieldCounts_popcntSwarOver ((List.prefix_append gs [g]).trans h) a
  rw [← step_granularity h] at hbefore
  have hafter := holdsFieldCounts_addGroups hg hbefore
  rw [← popcntSwarOver_concat] at hafter
  refine ⟨hafter.lt, addends_add_lt hg hbefore, Nat.lt_pow_self (by decide), fun j hj =>
    ⟨hafter.field_eq j hj, fieldCount_le .., ?_, ?_⟩⟩
  · exact (bitField_low_addend hg hbefore hj).trans_le (fieldCount_le ..)
  · exact (bitField_high_addend hg hbefore hj).trans_le (fieldCount_le ..)

end Sys2Proof.Machine
end

section
/-! SUPPORT. The statements of R50 to R53: what each population count's request does, and its result. -/

namespace Sys2Proof.Machine

/-- In a serving block a population count completes by one edge that takes its result, flag 0 (R64, R65). -/
theorem exec_popcntOf_completes (W : Width) (a : Word) {s : State} (hs : s.serving) :
    ∃ t, exec (popcntOf W a) s = .next t ∧ EdgeTakes s ⟨true, popcnt W a, false⟩ t :=
  ⟨_, exec_eq _ s, respOf_popcntOf W a ▸ edgeTakes_clockEdge hs _⟩

/-- Settles O24: the case W = 8; the corner cases by evaluation. -/
theorem popcnt8CountsLow8Bits : Obligations.Popcnt8CountsLow8Bits := fun a _ =>
  ⟨decode_of_func_01 rfl a, exec_popcntOf_completes .w8 a, toNat_popcnt_eq_fieldCount .w8 a, toNat_popcnt_le .w8 a,
    popcnt_zero .w8, by decide, by decide, by decide, by decide⟩

/-- Settles O25: the case W = 16; the corner cases by evaluation. -/
theorem popcnt16CountsLow16Bits : Obligations.Popcnt16CountsLow16Bits := fun a _ =>
  ⟨decode_of_func_01 rfl a, exec_popcntOf_completes .w16 a, toNat_popcnt_eq_fieldCount .w16 a, toNat_popcnt_le .w16 a,
    popcnt_zero .w16, by decide, by decide, by decide, by decide⟩

/-- Settles O26: the case W = 32; the corner cases by evaluation. -/
theorem popcnt32CountsLow32Bits : Obligations.Popcnt32CountsLow32Bits := fun a _ =>
  ⟨decode_of_func_01 rfl a, exec_popcntOf_completes .w32 a, toNat_popcnt_eq_fieldCount .w32 a, toNat_popcnt_le .w32 a,
    popcnt_zero .w32, by decide, by decide, by decide, by decide⟩

/-- Settles O27: the case W = 64; the corner cases by evaluation in the kernel, 64 additions each. -/
theorem popcnt64CountsAllBits : Obligations.Popcnt64CountsAllBits := fun a _ =>
  ⟨decode_of_func_01 rfl a, exec_popcntOf_completes .w64 a, toNat_popcnt_eq_fieldCount .w64 a, toNat_popcnt_le .w64 a,
    popcnt_zero .w64, by decide +kernel, by decide +kernel, by decide +kernel, by decide +kernel⟩

end Sys2Proof.Machine
end

section
/-! SUPPORT. The statements of 60_exceptions.md: when a response is illegal (R56, R58), that a host which presents only
the eight operations never sees such a response, and the stopped clock (R63). -/

namespace Sys2Proof.Machine

/-! ### The illegal flag -/

/-- `ill <- 0` for all eight operations (R42 to R45, R50 to R53). -/
@[simp] theorem answer_ill (y : Word) : (answer y).ill = false := rfl

/-- The flag of a response by the op: func 00 and 01 answer an operation's result, every other op the reserved answer. -/
theorem resp_ill_iff (op : BitVec 4) (a : Word) : (resp true op a).ill = true ↔ 8 ≤ op.toNat := by
  rcases opFunc_cases op with h | h | h
  · rw [resp_of_func_00 h, answer_ill, eight_le_op_iff, h]
    decide
  · rw [resp_of_func_01 h, answer_ill, eight_le_op_iff, h]
    decide
  · rw [resp_of_eight_le h]
    exact iff_of_true rfl h

theorem resp_true (op : BitVec 4) (a : Word) : resp true op a = respOf (decode ⟨op, a⟩) := if_pos rfl

/-- Settles O30: every response record is valid, and its flag is that of the reserved ops, those of func 10 and 11. -/
theorem illegalFlagFollowsFuncAlone : Obligations.IllegalFlagFollowsFuncAlone := fun op a =>
  ⟨resp_true op a ▸ respOf_v _, (resp_ill_iff op a).trans (eight_le_op_iff op)⟩

/-- A well-formed request is answered as illegal exactly if its op on the ports is a reserved one. -/
theorem respOf_ill_iff {i : Instr} (h : i.wellFormed = true) : (respOf i).ill = true ↔ 8 ≤ (encode i).op.toNat := by
  rw [← resp_ill_iff _ (encode i).a, resp_true, decode_encode h]

/-- Settles O28: a reserved request is one edge with the reserved answer, after which the block still serves, so the next
request is one edge with its own record. -/
theorem reservedOpAnswersZeroAndIllegal : Obligations.ReservedOpAnswersZeroAndIllegal := by
  intro op a s hfunc
  refine ⟨decode_of_eight_le ((eight_le_op_iff op).2 hfunc) a, fun hs => ?_, fun hs hi hrun => ?_⟩
  · have hserve := State.clockEdge_serving reservedAnswer hs
    exact ⟨_, exec_eq _ s, edgeTakes_clockEdge hs _,
      fun j => ⟨_, exec_eq j _, edgeTakes_clockEdge hserve _, respOf_ill_iff⟩⟩
  · obtain ⟨u, hu, -⟩ := runCycles_total s.latency s
    exact ⟨u, hu, outputs_of_presents hs hi hrun hu⟩

/-! ### Programs of legal ops -/

/-- The invariant of a host that presents only the eight operations: no illegal response has been seen, and none is on its
way through the stages. -/
structure State.FreeOfIllegal (s : State) : Prop where
  seen : s.hostSafe
  inFlight : ∀ r ∈ s.stages, r.ill = false

/-- The ports show a stage or the cycle's own record (R13, R66). -/
theorem State.ports_mem (s : State) (r : Stage) : s.ports r ∈ r :: s.stages := List.getLastD_mem_cons

/-- In a serving block an edge leaves in the stages only the cycle's record and what was there before (R65). -/
theorem State.mem_stages_of_clockEdge {r q : Stage} {s : State} (hs : s.serving) (hq : q ∈ (s.clockEdge r).stages) :
    q ∈ r :: s.stages := by
  rw [State.clockEdge_stages, State.stagesAfterEdge_of_serving r hs] at hq
  exact List.mem_of_mem_dropLast hq

namespace State.FreeOfIllegal

/-- With a legal record nothing illegal is on the ports or in the stages. -/
theorem record_or_stage {s : State} (h : s.FreeOfIllegal) {r : Stage} (hr : r.ill = false) :
    ∀ q ∈ r :: s.stages, q.ill = false :=
  List.forall_mem_cons.2 ⟨hr, h.inFlight⟩

/-- Appending the ports' values of a cycle with a legal record keeps the trace free of illegal responses. -/
theorem seen_ports {s : State} (h : s.FreeOfIllegal) {r : Stage} (hr : r.ill = false) :
    ∀ q ∈ s.trace ++ [s.ports r], q.ill = false :=
  List.forall_mem_append.2 ⟨h.seen, List.forall_mem_singleton.2 (h.record_or_stage hr _ (s.ports_mem r))⟩

theorem clockEdge {s : State} (hs : s.serving) (h : s.FreeOfIllegal) {r : Stage} (hr : r.ill = false) :
    (s.clockEdge r).FreeOfIllegal :=
  ⟨h.seen_ports hr, fun q hq => h.record_or_stage hr q (State.mem_stages_of_clockEdge hs hq)⟩

theorem resetEdge {s : State} (h : s.FreeOfIllegal) : s.resetEdge.FreeOfIllegal :=
  ⟨h.seen_ports rfl, List.forall_mem_map.2 fun _ _ => rfl⟩

theorem freeze {s : State} (h : s.FreeOfIllegal) : s.freeze.FreeOfIllegal := ⟨h.seen, h.inFlight⟩

end State.FreeOfIllegal

/-- A cycle that presents no request, or one with a legal op, has a record whose flag is 0. -/
theorem resp_ill_of_legal {valid : Bool} {op : BitVec 4} (h : valid = true → op.toNat < 8) (a : Word) :
    (resp valid op a).ill = false := by
  cases valid with
  | false => rfl
  | true => exact Bool.eq_false_iff.2 fun hill => Nat.not_le.2 (h rfl) ((resp_ill_iff op a).1 hill)

theorem step_keeps_freeOfIllegal {s t : State} (hs : s.serving) (hfree : s.FreeOfIllegal)
    (hlegal : s.current.reqValid = true → s.current.reqOp.toNat < 8) (h : step s = .next t) : t.FreeOfIllegal := by
  rcases step_cases s with ⟨-, e⟩ | ⟨-, -, e⟩ | ⟨-, e⟩ <;>
    obtain rfl := Host.Outcome.next.inj (e.symm.trans h)
  · exact hfree.freeze
  · exact hfree.resetEdge
  · exact hfree.clockEdge hs (resp_ill_of_legal hlegal _)

theorem runCycles_keeps_freeOfIllegal {n : Nat} {s t : State} (hs : s.serving) (hfree : s.FreeOfIllegal)
    (hlegal : ∀ k, k < n → (s.inputAt k).reqValid = true → (s.inputAt k).reqOp.toNat < 8)
    (h : runCycles n s = .next t) : t.FreeOfIllegal := by
  induction n generalizing s with
  | zero =>
    obtain rfl := Host.Outcome.next.inj h
    exact hfree
  | succ n ih =>
    obtain ⟨u, hu, hrun⟩ := exists_step_of_runCycles_succ h
    exact ih (step_keeps_serving hs hu) (step_keeps_freeOfIllegal hs hfree (hlegal 0 (by omega)) hu)
      (fun k hk => step_inputAt hu k ▸ hlegal (k + 1) (by omega)) hrun

/-- Settles O53: the stages of a drained clean block hold no illegal response, and the run adds none. -/
theorem programsOfLegalOpsAreSafe : Obligations.ProgramsOfLegalOpsAreSafe := by
  intro s t n hs hsafe hdrained hclean hlegal h
  have hfree : s.FreeOfIllegal := ⟨hsafe, fun r hr => (hclean r hr (hdrained r hr)).2⟩
  exact (runCycles_keeps_freeOfIllegal hs hfree hlegal h).seen

/-! ### The stopped clock -/

/-- Settles O39: the cycle only passes; with `L` ≥ 1 the ports show `stage[L]`, which keeps its contents. -/
theorem stoppedClockFreezesStages : Obligations.StoppedClockFreezesStages := by
  intro s hclk
  refine ⟨s.freeze, step_stopped hclk, s.freeze_stages, s.freeze_inputs, s.freeze_trace, s.freeze_phase, fun hL => ?_⟩
  calc s.freeze.outputs = s.freeze.stage s.freeze.latency := State.outputs_of_latency_pos hL
    _ = s.stage s.latency := rfl
    _ = s.outputs := (State.outputs_of_latency_pos hL).symm

end Sys2Proof.Machine
end

section
/-! SUPPORT. The statements of R66 to R70 about one cycle: what each kind of edge leaves, what the ports show, and how the
wait for the first reset ends. -/

namespace Sys2Proof.Machine

/-- Settles O34: a running cycle is one clock edge with the cycle's own record. -/
theorem runningEdgeMovesPipeline : Obligations.RunningEdgeMovesPipeline := fun _ hs hrun =>
  ⟨_, step_running hrun, edgeTakes_clockEdge hs _⟩

/-- A reset edge leaves the stages of the reset state (R67). -/
theorem State.resetEdge_stages_eq_resetFor (s : State) : s.resetEdge.stages = (State.resetFor s.latency).stages :=
  List.map_const'

/-- While `rst` = 1 the combinational path answers nothing (R66). -/
theorem combinational_of_reset {c : Inputs} (h : c.rst = true) : combinational c = Stage.empty := if_pos h

/-- Settles O36: the reset edge leaves the stages of the reset state, and with `L` = 0 the ports show the combinational
answer. -/
theorem resetEdgeClearsEveryStage : Obligations.ResetEdgeClearsEveryStage := by
  refine fun s => ⟨fun hclk hrst => ⟨s.resetEdge, step_reset hclk hrst, s.resetEdge_latency, fun r hr => ?_⟩,
    fun hL hrst => ?_⟩
  · rw [State.resetEdge_stages_eq_resetFor] at hr
    exact List.eq_of_mem_replicate hr
  · rw [State.outputs_of_latency_zero hL, combinational_of_reset hrst]
    rfl

/-- Settles O38: the reset edge reads nothing of what the block powered up with but its latency. -/
theorem powerUpThenResetIsClean : Obligations.PowerUpThenResetIsClean := by
  intro draw L c hclk hrst
  refine ⟨_, step_reset hclk hrst, ?_, rfl⟩
  have hlat : ((State.powerUp draw L).withCurrent c).latency = L := State.powerUp_latency draw L
  rw [State.resetEdge_stages_eq_resetFor, hlat]

/-- Settles O40: each of the cases of a step answers a next state. -/
theorem everyStepCompletes : Obligations.EveryStepCompletes := fun s =>
  have ⟨t, ht, hinputs, _⟩ := step_total s
  ⟨t, ht, hinputs⟩

/-- Settles O45: the ports by the latency. -/
theorem outputsAreLastStageOrCombinational : Obligations.OutputsAreLastStageOrCombinational := fun _ =>
  ⟨State.outputs_of_latency_pos, State.outputs_of_latency_zero⟩

/-- Settles O46: both kinds of edge record the ports of the cycle, and a stopped clock records nothing. -/
theorem traceRecordsOutputsOfEachCycle : Obligations.TraceRecordsOutputsOfEachCycle := by
  intro s t h
  cases hclk : s.current.clk with
  | true => exact step_trace hclk h
  | false =>
    obtain rfl := Host.Outcome.next.inj ((step_stopped hclk).symm.trans h)
    rfl

/-- Settles O57: the frame of the reset edge; the cycle's record is empty, so with `L` = 0 the ports show nothing. -/
theorem resetCycleShowsLastStage : Obligations.ResetCycleShowsLastStage := by
  intro s t hclk hrst h
  obtain rfl := Host.Outcome.next.inj ((step_reset hclk hrst).symm.trans h)
  refine ⟨s.resetEdge_inputs, ?_⟩
  rw [State.resetEdge_trace, State.ports_eq]
  rfl

/-- Settles O54: of the three cases of a step only the reset edge changes whether a reset has been seen. -/
theorem onlyResetEdgeStartsService : Obligations.OnlyResetEdgeStartsService := by
  intro s t h
  rcases step_cases s with ⟨hclk, e⟩ | ⟨hclk, hrst, e⟩ | ⟨⟨-, hrst⟩, e⟩ <;>
    obtain rfl := Host.Outcome.next.inj (e.symm.trans h)
  · simp [hclk]
  · simp [hclk, hrst]
  · simp [hrst]

/-- An edge with `rst` = 0 does not change whether a block serves requests (R68). -/
theorem State.clockEdge_serving_iff (r : Stage) (s : State) : (s.clockEdge r).serving ↔ s.serving := by
  rw [State.serving, State.clockEdge_phase, Phase.afterEdge_eq_resetSeen, State.clockEdge_latency]

/-- Settles O55: the request is one clock edge, which leaves the wait for the reset as it was; a block that does not serve
has a last stage. -/
theorem requestBeforeFirstResetCompletesAndBlockWaits :
    Obligations.RequestBeforeFirstResetCompletesAndBlockWaits := by
  intro i s hs
  have hL : 1 ≤ s.latency := Nat.one_le_iff_ne_zero.2 fun h => hs (.inr h)
  exact ⟨_, exec_eq i s, mt (State.clockEdge_serving_iff _ s).1 hs, State.clockEdge_latency _ s,
    State.clockEdge_inputs _ s, by rw [State.clockEdge_trace, State.ports_eq_last_stage _ hL]⟩

end Sys2Proof.Machine
end

section
/-! SUPPORT. After a reset edge (R68): the outputs stay zero until a response arrives, and the first request is served. -/

namespace Sys2Proof.Machine

theorem State.stage_of_latency_lt {s : State} {k : Nat} (h : s.latency < k) : s.stage k = Stage.empty := by
  rw [State.latency] at h
  rw [State.stage, List.getElem?_eq_none (by omega)]
  rfl

/-- The invariant of a block since its last reset edge: it serves requests, and no response has come past `stage[m]`. -/
structure State.EmptyBeyond (m : Nat) (s : State) : Prop where
  serving : s.serving
  empty : ∀ k, m < k → s.stage k = Stage.empty

namespace State.EmptyBeyond

theorem resetEdge (m : Nat) (s : State) : s.resetEdge.EmptyBeyond m :=
  ⟨s.resetEdge_serving, fun k _ => s.resetEdge_stage k⟩

theorem freeze {m : Nat} {s : State} (h : s.EmptyBeyond m) : s.freeze.EmptyBeyond m := ⟨h.serving, h.empty⟩

theorem mono {m n : Nat} {s : State} (h : s.EmptyBeyond m) (hmn : m ≤ n) : s.EmptyBeyond n :=
  ⟨h.serving, fun k hk => h.empty k (by omega)⟩

/-- An edge moves a response at most one stage on (R65). -/
theorem clockEdge {m : Nat} {s : State} (h : s.EmptyBeyond m) (r : Stage) : (s.clockEdge r).EmptyBeyond (m + 1) := by
  refine ⟨State.clockEdge_serving r h.serving, fun k hk => ?_⟩
  obtain ⟨j, rfl⟩ : ∃ j, k = j + 1 := ⟨k - 1, by omega⟩
  by_cases hj : j < s.latency
  · rw [State.clockEdge_stage_succ r h.serving j (by omega) hj, h.empty j (by omega)]
  · exact State.stage_of_latency_lt (by rw [State.clockEdge_latency]; omega)

/-- An edge of an empty pipeline whose cycle has the empty record leaves it empty. -/
theorem clockEdge_empty {s : State} (h : s.EmptyBeyond 0) : (s.clockEdge Stage.empty).EmptyBeyond 0 := by
  refine ⟨State.clockEdge_serving _ h.serving, fun k hk => ?_⟩
  obtain rfl | hk : k = 1 ∨ 1 < k := by omega
  · by_cases hL : 1 ≤ s.latency
    · exact State.clockEdge_stage_one _ h.serving hL
    · exact State.stage_of_latency_lt (by rw [State.clockEdge_latency]; omega)
  · exact (h.clockEdge Stage.empty).empty k hk

end State.EmptyBeyond

/-- Whatever a cycle is and presents, it moves a response at most one stage on. -/
theorem step_emptyBeyond {m : Nat} {s t : State} (hempty : s.EmptyBeyond m) (h : step s = .next t) :
    t.EmptyBeyond (m + 1) := by
  rcases step_cases s with ⟨-, e⟩ | ⟨-, -, e⟩ | ⟨-, e⟩ <;>
    obtain rfl := Host.Outcome.next.inj (e.symm.trans h)
  · exact hempty.freeze.mono (Nat.le_succ m)
  · exact .resetEdge _ s
  · exact hempty.clockEdge _

/-- A cycle without a request, of whichever kind, leaves an empty pipeline empty. -/
theorem step_keeps_empty {s t : State} (hempty : s.EmptyBeyond 0) (hv : s.current.reqValid = false)
    (h : step s = .next t) : t.EmptyBeyond 0 := by
  rcases step_cases s with ⟨-, e⟩ | ⟨-, -, e⟩ | ⟨-, e⟩ <;>
    obtain rfl := Host.Outcome.next.inj (e.symm.trans h)
  · exact hempty.freeze
  · exact .resetEdge _ s
  · rw [hv]
    exact hempty.clockEdge_empty

theorem runCycles_emptyBeyond {m n : Nat} {s t : State} (hempty : s.EmptyBeyond m) (h : runCycles n s = .next t) :
    t.EmptyBeyond (m + n) := by
  induction n generalizing s m with
  | zero =>
    obtain rfl := Host.Outcome.next.inj h
    exact hempty
  | succ n ih =>
    obtain ⟨u, hu, hrun⟩ := exists_step_of_runCycles_succ h
    have hlast := ih (step_emptyBeyond hempty hu) hrun
    rwa [Nat.add_assoc, Nat.add_comm 1 n] at hlast

theorem runCycles_keeps_empty {n : Nat} {s t : State} (hempty : s.EmptyBeyond 0)
    (hv : ∀ k, k < n → (s.inputAt k).reqValid = false) (h : runCycles n s = .next t) : t.EmptyBeyond 0 := by
  induction n generalizing s with
  | zero =>
    obtain rfl := Host.Outcome.next.inj h
    exact hempty
  | succ n ih =>
    obtain ⟨u, hu, hrun⟩ := exists_step_of_runCycles_succ h
    exact ih (step_keeps_empty hempty (hv 0 (by omega)) hu)
      (fun k hk => step_inputAt hu k ▸ hv (k + 1) (by omega)) hrun

/-- Settles O37: the cycles without a request leave the cleared pipeline empty, and in `j < L` more no response reaches
`stage[L]`, which the ports show. -/
theorem outputsZeroAfterResetUntilResponse : Obligations.OutputsZeroAfterResetUntilResponse := by
  intro s n j hclk hrst hidle hj
  have hreset := step_reset hclk hrst
  obtain ⟨u, hu, -⟩ := runCycles_total n s.resetEdge
  have hfirst : runCycles (1 + n) s = .next u := by rw [Nat.add_comm, runCycles_succ n hreset, hu]
  obtain ⟨t, ht, -⟩ := runCycles_total j u
  have hrun : runCycles (1 + n + j) s = .next t := (runCycles_add _ j hfirst).trans ht
  have hcleared : u.EmptyBeyond 0 := runCycles_keeps_empty (.resetEdge 0 s)
    (fun k hk => step_inputAt hreset k ▸ hidle (k + 1) (by omega) (by omega)) hu
  have hL := runCycles_latency hrun
  refine ⟨t, hrun, ?_⟩
  rw [State.outputs_of_latency_pos (by omega), (runCycles_emptyBeyond hcleared ht).empty _ (by omega)]
  rfl

/-- Settles O56: whatever came before, after the reset edge the block serves requests. -/
theorem firstRequestAfterResetIsServed : Obligations.FirstRequestAfterResetIsServed := by
  intro draw L n ins i s hs hclk hrst hi hrun
  obtain ⟨u, hu, -, hul⟩ := runCycles_total n s
  have hreset : step u = .next u.resetEdge :=
    step_reset (runCycles_current hu ▸ hclk) (runCycles_current hu ▸ hrst)
  have hafter : runCycles (n + 1) s = .next u.resetEdge := by
    rw [runCycles_add n 1 hu, runCycles_succ 0 hreset, runCycles_zero]
  have hL : u.resetEdge.latency = L := by
    rw [State.resetEdge_latency, hul, hs]
    exact State.powerUp_latency draw L
  have hcycle := runCycles_inputAt hafter
  obtain ⟨t, ht, -⟩ := runCycles_total L u.resetEdge
  exact ⟨t, (runCycles_add (n + 1) L hafter).trans ht,
    outputs_of_presents u.resetEdge_serving (runCycles_current hafter ▸ hi)
      (fun k h1 hk => hcycle k ▸ hrun k h1 (hL ▸ hk)) (hL ▸ ht)⟩

end Sys2Proof.Machine
end

section
/-! SUPPORT. The pipeline as a delay line (R28, R65, R71, R73, R74): requests are answered `L` cycles later, a row of cycles
passes through the stages in order, and a complete run shows each request's response. -/

namespace Sys2Proof.Machine

/-- Settles O47: the ports after `L` cycles show the presenting cycle's own record. -/
theorem requestAnsweredAfterLatency : Obligations.RequestAnsweredAfterLatency := by
  intro s i hs hi hrun
  obtain ⟨t, ht, -⟩ := runCycles_total s.latency s
  exact ⟨t, ht, outputs_of_presents hs hi hrun ht⟩

/-- An edge of a serving block loses no record: those in flight, oldest first, with the cycle's own after them, are the one
the ports show followed by those in flight next (R65, R66). -/
theorem State.reverse_stages_append (r : Stage) {s : State} (hs : s.serving) :
    s.stages.reverse ++ [r] = s.ports r :: (s.clockEdge r).stages.reverse := by
  have hlast : (r :: s.stages).dropLast ++ [s.ports r] = r :: s.stages := by
    rw [State.ports, ← List.getLast_eq_getLastD (List.cons_ne_nil r s.stages), List.dropLast_concat_getLast]
  rw [State.clockEdge_stages, State.stagesAfterEdge_of_serving r hs, ← List.reverse_concat, hlast, List.reverse_cons]

/-- Settles O48, by induction on the row: each cycle takes the first record off the line and appends its own. -/
theorem pipelineIsDelayLine : Obligations.PipelineIsDelayLine := by
  intro s cs rest hs hinputs hrun
  induction cs generalizing s with
  | nil => exact ⟨s, rfl, hinputs, by simp, by simp⟩
  | cons c cs ih =>
    have hcurrent : s.current = c := by simp [State.current, State.inputAt, hinputs]
    obtain ⟨hnow, hlater⟩ := List.forall_mem_cons.1 hrun
    have hstep := step_running (hcurrent ▸ hnow)
    rw [hcurrent] at hstep
    obtain ⟨t, ht, hti, htrace, hstages⟩ := ih (s.clockEdge (resp c.reqValid c.reqOp c.reqA))
      (State.clockEdge_serving _ hs) (by simp [hinputs]) hlater
    refine ⟨t, (runCycles_succ _ hstep).trans ht, hti, ?_⟩
    rw [List.map_cons, List.append_cons, State.reverse_stages_append _ hs, List.cons_append, List.length_cons,
      List.take_succ_cons, List.drop_succ_cons]
    refine ⟨?_, hstages⟩
    rw [htrace, State.clockEdge_trace, List.append_assoc, List.singleton_append]

/-- A cycle's record is a response exactly if the cycle presents a request (R64). -/
@[simp] theorem resp_v (valid : Bool) (op : BitVec 4) (a : Word) : (resp valid op a).v = valid := by
  cases valid with
  | false => rfl
  | true => rw [resp_true, respOf_v]

/-- Of the records of a row of cycles the responses are those owed for its requests. -/
theorem responses_map_resp (cs : List Inputs) :
    responses (cs.map fun c => resp c.reqValid c.reqOp c.reqA) = owed cs := by
  have hrequests : cs.filter ((·.v) ∘ fun c => resp c.reqValid c.reqOp c.reqA) = cs.filter (·.reqValid) :=
    List.filter_congr fun c _ => resp_v c.reqValid c.reqOp c.reqA
  rw [responses, owed, List.filter_map, hrequests]
  refine List.map_congr_left fun c hc => ?_
  rw [(List.mem_filter.1 hc).2, resp_true]

/-- Cycles without a request have the empty record (R64). -/
theorem map_resp_of_not_valid {cs : List Inputs} (h : ∀ c ∈ cs, c.reqValid = false) :
    (cs.map fun c => resp c.reqValid c.reqOp c.reqA) = List.replicate cs.length Stage.empty :=
  List.map_eq_replicate_iff.2 fun c hc => by rw [h c hc]; rfl

theorem responses_replicate_empty_append (n : Nat) (trace : List Stage) :
    responses (List.replicate n Stage.empty ++ trace) = responses trace := by
  simp [responses, Stage.empty]

/-- Settles O50: the delay line starts with `L` empty records, and the last `L` cycles push the responses of all others out
of it. -/
theorem completeRunObservesEveryResponse : Obligations.CompleteRunObservesEveryResponse := by
  intro L cs tail hcs htail hL
  have hrun : ∀ c ∈ cs ++ tail, Inputs.running c :=
    List.forall_mem_append.2 ⟨hcs, fun c hc => (htail c hc).1⟩
  obtain ⟨t, ht, -, htrace, hstages⟩ := pipelineIsDelayLine { State.resetFor L with inputs := cs ++ tail } (cs ++ tail) []
    (.inl rfl) (List.append_nil _).symm hrun
  have hline : ((State.resetFor L).stages.reverse ++ (cs ++ tail).map fun c => resp c.reqValid c.reqOp c.reqA) =
      (List.replicate L Stage.empty ++ cs.map fun c => resp c.reqValid c.reqOp c.reqA) ++
        List.replicate L Stage.empty := by
    rw [State.resetFor_stages, List.reverse_replicate, List.map_append,
      map_resp_of_not_valid fun c hc => (htail c hc).2, hL, List.append_assoc]
  have hcut : (cs ++ tail).length =
      (List.replicate L Stage.empty ++ cs.map fun c => resp c.reqValid c.reqOp c.reqA).length := by
    simp [hL, Nat.add_comm]
  rw [hline, hcut] at htrace hstages
  rw [List.take_left] at htrace
  rw [List.drop_left, List.reverse_eq_iff, List.reverse_replicate] at hstages
  refine ⟨t, by rwa [List.length_append, hL] at ht, ?_, fun r hr => ?_⟩
  · rw [htrace, State.resetFor_trace, List.nil_append, responses_replicate_empty_append, responses_map_resp]
  · rw [hstages] at hr
    rw [List.eq_of_mem_replicate hr]
    rfl

/-- Settles O52: the first result is on the ports in cycle `L`; the dependent request is presented there, or with `L` = 0
in the next cycle, and answered like any other. -/
theorem dependentRequestUsesResult : Obligations.DependentRequestUsesResult := by
  intro s i op hs hi hrun
  refine ⟨fun hL hv hop ha => ?_, fun hL hrst hv hop ha => ?_⟩
  · obtain ⟨u, hu, -, hul⟩ := runCycles_total s.latency s
    have hresult : u.outputs = respOf i := outputs_of_presents hs hi (fun k _ hk => hrun k (by omega)) hu
    have hserve : u.serving :=
      runCycles_serving (fun k hk => (hrun k (by omega)).1) (.inl hs) hu
    have hrun' : ∀ k, k < max u.latency 1 → Inputs.running (u.inputAt k) := fun k hk =>
      runCycles_inputAt hu k ▸ hrun (s.latency + k) (by omega)
    obtain ⟨t, ht, -⟩ := runCycles_total u.latency u
    refine ⟨t, by rw [Nat.two_mul, runCycles_add _ _ hu, ← hul, ht], ?_⟩
    rw [outputs_after_latency hserve hrun' ht, runCycles_current hu, hv, hop, ha u hu, hresult]
  · have hresult : s.outputs = respOf i :=
      outputs_of_presents hs hi (fun k _ hk => by omega) (by rw [hL, runCycles_zero])
    obtain ⟨t, ht, -, htl⟩ := runCycles_total 1 s
    refine ⟨t, ht, ?_⟩
    rw [State.outputs_of_latency_zero (htl.trans hL), runCycles_current ht, combinational, hrst, hv, hop, ha, hresult]
    rfl

end Sys2Proof.Machine
end
